-- ==== Sys2Proof/Word.lean ====
section
/-! DEFINITION. The item types of the channels (spec 20_memory.md R41): words of CMD and RESP, octets of DIN and DOUT. -/

namespace Sys2Proof

/-- A 32-bit item of CMD or RESP (R41). -/
abbrev Word := BitVec 32

/-- An 8-bit item of DIN or DOUT (R41). -/
abbrev Octet := BitVec 8

end Sys2Proof
end

