-- ==== Sys2Proof/Config.lean ====
section
/-! DEFINITION. What the hardware fixes: the parameters of spec 00_scope.md R10, the CRC families of 30_encoding.md R64,
and the default of the one named parameter, WS_SET (R11). No result of a command is undefined (41_bitwise_engine.md R125),
so the model needs no free value. -/

namespace Sys2Proof

/-- The eight values of the FAM field (30_encoding.md R64). The last three are reserved: they decode, and VALIDATE then
ends with INVALID_WIDTH (R68). -/
inductive Family where
  | crc8 | crc16 | crc32 | crc64 | custom | reserved5 | reserved6 | reserved7
deriving DecidableEq, Repr

/-- `W_MIN` (R10): the smallest polynomial width. -/
def Config.widthMin : Nat := 2

/-- `W_MAX` (R10): the largest polynomial width. -/
def Config.widthMax : Nat := 128

/-- `TBL_MIN_DEG` (R10): the smallest degree that has a table. -/
def Config.tableMinDegree : Nat := 8

/-- The code of the character `0` (R10, R16). -/
def Config.charZero : Octet := 0x30#8

/-- The code of the character `1` (R10, R16). -/
def Config.charOne : Octet := 0x31#8

/-- The default of `WS_SET` (R10). The model carries WS_SET in its state (log entry 3), so a statement about every state is
about every WS_SET (R11); this value is only the one State.reset has. PRESUMED by the spec itself (93_implementation_defined.md I22). -/
def Config.wsDefault : List Octet := [0x09#8, 0x0A#8, 0x0B#8, 0x0C#8, 0x0D#8, 0x20#8]

end Sys2Proof
end

