-- ==== Sys2Proof/Syntax.lean ====
section
/-! DEFINITION. The commands: one constructor per row of spec/opcode_table.json (30_encoding.md R63). -/

namespace Sys2Proof

/-- A legal command. `imm8` and `index` are the field CW[23:16] as received (R65); `len` is the LEN word as a count (R61). -/
inductive Instr where
  /-- `validate`: OP 0x01, T 0 (R100). -/
  | validate (fam : Family) (imm8 : BitVec 8) (len : Nat)
  /-- `encode.bw`: OP 0x02, T 0 (R123). -/
  | encodeBw (len : Nat)
  /-- `encode.tbl`: OP 0x02, T 1 (R163). -/
  | encodeTbl (len : Nat)
  /-- `decode.bw`: OP 0x03, T 0 (R124). -/
  | decodeBw (len : Nat)
  /-- `decode.tbl`: OP 0x03, T 1 (R164). -/
  | decodeTbl (len : Nat)
  /-- `tread`: OP 0x04 (R145). -/
  | tread (index : BitVec 8)
  /-- `qpoly`: OP 0x05 (R104). -/
  | qpoly
deriving DecidableEq, Repr

/-- How many characters a command removes from DIN (20_memory.md R44). -/
def Instr.dataLen : Instr → Nat
  | .validate _ _ len => len
  | .encodeBw len => len
  | .encodeTbl len => len
  | .decodeBw len => len
  | .decodeTbl len => len
  | .tread _ => 0
  | .qpoly => 0

/-! ### Groups of commands -/

/-- `i` is an ENCODE. -/
def Instr.isEncode : Instr → Bool
  | .encodeBw _ | .encodeTbl _ => true
  | .validate _ _ _ | .decodeBw _ | .decodeTbl _ | .tread _ | .qpoly => false

/-- `i` is a DECODE. -/
def Instr.isDecode : Instr → Bool
  | .decodeBw _ | .decodeTbl _ => true
  | .validate _ _ _ | .encodeBw _ | .encodeTbl _ | .tread _ | .qpoly => false

/-- `i` is a VALIDATE. -/
def Instr.isValidate : Instr → Bool
  | .validate _ _ _ => true
  | .encodeBw _ | .encodeTbl _ | .decodeBw _ | .decodeTbl _ | .tread _ | .qpoly => false

/-- `i` is a command that may run GetTable (42_table_generator.md R148). -/
def Instr.usesTable : Instr → Bool
  | .encodeTbl _ | .decodeTbl _ | .tread _ => true
  | .validate _ _ _ | .encodeBw _ | .decodeBw _ | .qpoly => false

/-- `i` is a command that sends payload words on success (20_memory.md R45). -/
def Instr.sendsPayload : Instr → Bool
  | .tread _ | .qpoly => true
  | .validate _ _ _ | .encodeBw _ | .encodeTbl _ | .decodeBw _ | .decodeTbl _ => false

end Sys2Proof
end

