-- ==== Sys2Proof/Machine/State.lean ====
section
/-! DEFINITION. The state of the machine (spec 10_state.md R34), its channels (20_memory.md R41), the command in progress
(70_reset_and_hazards.md R230), the state after reset, and the reasons a step can stop. -/

namespace Sys2Proof.Machine

/-- `TBL[0..255]`: 256 entries of 127 bits (R28). -/
abbrev Table := Vector (BitVec 127) 256

/-- Which of the duties (a) and (c) of R240 the host has broken since reset, the first one broken. The MODEL's own field (log
entry 4): written by the host's acts (HostPort.lean), by no step. -/
inductive HostConduct where
  /-- None: each CW was sent after the whole response before it was read (R240 (a)), and the host drains RESP and DOUT (c). -/
  | keepsDuties
  /-- Duty (a): a CW was sent before the whole response of the command before it was read. -/
  | sentEarly
  /-- Duty (c): the host has stopped draining RESP and DOUT. -/
  | stopsDraining
deriving DecidableEq, Repr

/-- What the host has yet to read, by its own framing, of the response to the CW it has sent (R240 (a)). The MODEL's own type (log
entry 15). -/
inductive Unread where
  /-- All of the response to the CW it sent, with the LEN it sent, if any; so many DOUT characters it has read already. -/
  | response (cw : Word) (len : Option Word) (got : Nat)
  /-- So many words of RESP and characters of DOUT; none of either once the whole response is read. -/
  | items (words chars : Nat)
deriving DecidableEq, Repr

/-- The machine. Plain data; the fields are the registers of R34, the channels of R41 with the oldest item first,
the command in progress, the build's WS_SET, and two fields of the model's about the host. No step writes the last three. -/
structure State where
  /-- `POLY_BITS` (R22). -/
  polyBits : BitVec 128
  /-- `POLY_WIDTH` (R23). -/
  polyWidth : BitVec 8
  /-- `POLY_VALID` (R25). -/
  polyValid : Bool
  /-- `TBL` (R28). -/
  tbl : Table
  /-- `TBL_KEY_BITS` (R28). -/
  tblKeyBits : BitVec 128
  /-- `TBL_KEY_WIDTH` (R28). -/
  tblKeyWidth : BitVec 8
  /-- `TBL_VALID` (R28). -/
  tblValid : Bool
  /-- `CMD`, host to core (R41). -/
  cmd : List Word
  /-- `DIN`, host to core (R41). -/
  din : List Octet
  /-- `RESP`, core to host (R41). -/
  resp : List Word
  /-- `DOUT`, core to host (R41). -/
  dout : List Octet
  /-- The command whose words are taken and whose characters have not all come (R230, R231; log entry 6). -/
  inProgress : Option Instr
  /-- `WS_SET`, the build parameter of R11 (log entry 3). -/
  wsSet : List Octet
  /-- Host duties (a) and (c) of R240: whether one is broken (log entry 4). -/
  host : HostConduct
  /-- What the host has yet to read (R240 (a); log entry 15). -/
  unread : Unread
deriving DecidableEq, Repr

/-- Reasons a step stops. No command of this core faults (60_exceptions.md R202): the two reasons stand for the spec's
"stuck, not faulted" (R240, 93_implementation_defined.md I4). -/
inductive Fault where
  /-- Raised by `step` alone, never by a meaning: the host has sent a CW before it had read the whole response of the command
  before it, and the core "may wait forever" (R240 (a)). Safe: nothing is proved of what follows. -/
  | stuckResponseUnread
  /-- Raised by `step` alone, never by a meaning: the host has stopped draining RESP and DOUT, and the core "may wait forever"
  for space (R240 (c)). Safe: nothing is proved of what follows. -/
  | stuckNotDrained
deriving DecidableEq, Repr

/-- Reasons to refuse. -/
inductive Refusal where
  /-- Raised by an arm of `exec` that has no meaning yet. Safe: no claim about that instruction can be proved. -/
  | notModelled (mnemonic : String)
deriving DecidableEq, Repr

/-- What a step or a meaning answers. -/
abbrev Result := Host.Outcome State Fault Refusal

/-- The state after reset (R230). The spec leaves TBL open ("any value", R232): zero is the model's choice (log entry 1).
`wsSet` has the spec's default (R10); the host has broken no duty and has nothing to
read (log entries 4 and 15). -/
def State.reset : State where
  polyBits := 0#128
  polyWidth := 0#8
  polyValid := false
  tbl := Vector.replicate 256 0#127
  tblKeyBits := 0#128
  tblKeyWidth := 0#8
  tblValid := false
  cmd := []
  din := []
  resp := []
  dout := []
  inProgress := none
  wsSet := Config.wsDefault
  host := .keepsDuties
  unread := .items 0 0

end Sys2Proof.Machine
end

