-- ==== Sys2Proof/Machine/Operands.lean ====
section
/-! DEFINITION. Operand forms: bit strings and their values (spec 00_scope.md R12, R13), character classes (R16), whitespace
removal (40_validator.md R101), the expected width (30_encoding.md R64), and the active polynomial's value and degree. -/

namespace Sys2Proof.Machine

/-! ### Bit strings (R12, R13): a list of Bool, `s_0` first -/

/-- `val(s)`: `s_0` is the most significant bit (R12, 20_memory.md R43). -/
def val (s : List Bool) : Nat := s.foldl (fun v b => 2 * v + b.toNat) 0

/-- `bits_n(v)`: `n` characters, most significant first, zero-padded on the left (R12). -/
def bitsN : Nat → Nat → List Bool
  | 0, _ => []
  | n + 1, v => v.testBit n :: bitsN n v

/-- `mask_d = 2^d - 1` (R13). -/
def mask (d : Nat) : Nat := 2 ^ d - 1

/-- `popcount(v)` of an `n`-bit value (R13). -/
def popcount {n : Nat} (v : BitVec n) : Nat := ((List.range n).filter (fun i => v.getLsbD i)).length

/-! ### Characters (R16) -/

/-- The classes of an octet (R16). -/
inductive CharClass where
  | zero | one | ws | other
deriving DecidableEq, Repr

/-- `class(c)`, for a given `WS_SET` (R16). -/
def classOf (wsSet : List Octet) (c : Octet) : CharClass :=
  if c = Config.charZero then .zero
  else if c = Config.charOne then .one
  else if c ∈ wsSet then .ws
  else .other

/-- `class(c)` is ZERO or ONE (R16). It does not depend on `WS_SET`. -/
def isBinary (c : Octet) : Bool := c == Config.charZero || c == Config.charOne

/-- `bitsOf(cs)`: ONE is 1, ZERO is 0 (R16). -/
def bitsOf (cs : List Octet) : List Bool := cs.map (fun c => c == Config.charOne)

/-- `charsOf(s)` (R16). -/
def charsOf (s : List Bool) : List Octet := s.map (fun b => if b then Config.charOne else Config.charZero)

/-- Removal of every octet of class WS, wherever it stands (R101). -/
def stripWs (wsSet : List Octet) (cs : List Octet) : List Octet := cs.filter (fun c => classOf wsSet c != .ws)

/-! ### The expected width (R64) -/

/-- `ew` of R64, none where VALIDATE ends with INVALID_WIDTH. IMM8 counts for the custom family alone. -/
def expectedWidth (fam : Family) (imm8 : BitVec 8) : Option Nat :=
  match fam with
  | .crc8 => some 9
  | .crc16 => some 17
  | .crc32 => some 33
  | .crc64 => some 65
  | .custom => if Config.widthMin ≤ imm8.toNat ∧ imm8.toNat ≤ Config.widthMax then some imm8.toNat else none
  | .reserved5 => none
  | .reserved6 => none
  | .reserved7 => none

/-! ### The active polynomial (R22, R23) -/

/-- `P`, the value of the active polynomial (R22). -/
def State.poly (s : State) : Nat := s.polyBits.toNat

/-- `d = POLY_WIDTH - 1` (R23); 0 for a width of 0, which no reachable state has with POLY_VALID (R24; log entry 11). -/
def State.degree (s : State) : Nat := s.polyWidth.toNat - 1

end Sys2Proof.Machine
end

