-- ==== Sys2Proof/Machine/Flags.lean ====
section
/-! DEFINITION. Status codes (spec 60_exceptions.md R200), the response word (30_encoding.md R70), the payload words
(20_memory.md R46) and the derived polynomial flags (10_state.md R27). -/

namespace Sys2Proof.Machine

/-- The statuses (R200). -/
inductive Status where
  | ok | empty | nonBinaryCharacter | lengthMismatch | missingLeadingTerm | invalidWidth
  | emptyInput | tooShort | noPolynomial | noTable | illegalCommand
deriving DecidableEq, Repr

/-- The code of a status (R200). -/
def Status.code : Status → BitVec 8
  | .ok => 0x00#8
  | .empty => 0x01#8
  | .nonBinaryCharacter => 0x02#8
  | .lengthMismatch => 0x03#8
  | .missingLeadingTerm => 0x04#8
  | .invalidWidth => 0x05#8
  | .emptyInput => 0x06#8
  | .tooShort => 0x07#8
  | .noPolynomial => 0x08#8
  | .noTable => 0x09#8
  | .illegalCommand => 0x0A#8

/-- The fields of RW0 (R70); a field a command does not set is 0. -/
structure Reply where
  status : Status
  verdict : Bool := false
  ndx : Bool := false
  dxp1 : Bool := false
  rwidth : BitVec 8 := 0#8
deriving DecidableEq, Repr

/-- RW0: STATUS [7:0], VERDICT [8], NDX [9], DXP1 [10], zero [15:11], RWIDTH [23:16], zero [31:24] (R70). -/
def Reply.word (r : Reply) : Word :=
  0#8 ++ r.rwidth ++ 0#5 ++ BitVec.ofBool r.dxp1 ++ BitVec.ofBool r.ndx ++ BitVec.ofBool r.verdict ++ r.status.code

/-- The four payload words of a 128-bit value, least significant word first (R46). -/
def payload (v : BitVec 128) : List Word :=
  [v.extractLsb' 0 32, v.extractLsb' 32 32, v.extractLsb' 64 32, v.extractLsb' 96 32]

/-- NDX: `POLY_BITS[0]` (R27). -/
def ndxFlag (p : BitVec 128) : Bool := p.getLsbD 0

/-- DXP1: `popcount(POLY_BITS)` is even (R27). -/
def dxp1Flag (p : BitVec 128) : Bool := popcount p % 2 == 0

end Sys2Proof.Machine
end

