-- ==== Sys2Proof/Machine/Ops.lean ====
section
/-! DEFINITION. The named operations on the state: writes of the register groups, receiving from DIN (spec 20_memory.md R44),
ending a command (R45), error completion (60_exceptions.md R202), and the entries of the table. -/

namespace Sys2Proof.Machine

/-! ### Register groups -/

/-- VALIDATE's commit: the three polynomial registers, whole (R100). -/
def State.setPoly (s : State) (bits : BitVec 128) (width : BitVec 8) : State :=
  { s with polyBits := bits, polyWidth := width, polyValid := true }

/-- A build's commit: all entries, the key, and `TBL_VALID` (42_table_generator.md R142). -/
def State.setTable (s : State) (t : Table) (bits : BitVec 128) (width : BitVec 8) : State :=
  { s with tbl := t, tblKeyBits := bits, tblKeyWidth := width, tblValid := true }

/-- `T[i]` for a byte value `i`. -/
def entry (t : Table) (i : BitVec 8) : BitVec 127 := t[i.toNat]'(i.isLt)

/-! ### Channels -/

/-- The words left on CMD when a command's own are removed (R41). -/
def State.setCmd (s : State) (ws : List Word) : State := { s with cmd := ws }

/-- `n` times `RecvSym()`: the `n` oldest octets leave DIN (R41, R44). -/
def State.takeInput (s : State) (n : Nat) : State := { s with din := s.din.drop n }

/-- The command is taken and waits for its characters (log entry 6). -/
def State.hold (s : State) (i : Instr) : State := { s with inProgress := some i }

/-- The end of a command: its RESP words and DOUT characters are sent, in order (`SendWord`, `SendSym`, R41), and no command
is in progress any more (R242: "The end of a command is its last response item"). That RESP and DOUT have room for them is
the model's choice (log entry 5); a host that has stopped draining them leaves the core no step (`fetch`, R240 (c)). -/
def State.respond (s : State) (ws : List Word) (cs : List Octet) : State :=
  { s with resp := s.resp ++ ws, dout := s.dout ++ cs, inProgress := none }

/-- Receive a command's LEN characters, all of them before anything else happens (R44), and go on with them. `RecvSym()`
blocks while DIN is empty (R41): until all have come the command stays in progress and nothing else changes. That they all
stand in DIN at once (the spec states no depth of DIN) is the model's choice (log entries 6 and 14). -/
def receive (i : Instr) (s : State) (body : List Octet → State → Result) : Result :=
  if i.dataLen ≤ s.din.length then body (s.din.take i.dataLen) (s.takeInput i.dataLen)
  else .next (s.hold i)

/-! ### Error completion (R202): this core's only exception, taken as a response -/

/-- `raise <Status>`: RW0 with the status and every other bit 0, no payload, no DOUT, no other state written (R202). There is
nothing to return from: the core is ready for the next command, and no status is remembered (R203, R226). -/
def raise (st : Status) (s : State) : Result := .next (s.respond [Reply.word { status := st }] [])

/-- An illegal CW, already removed from CMD, ends with ILLEGAL_COMMAND (R66, R210). -/
def illegalCommand (s : State) : Result := raise .illegalCommand s

end Sys2Proof.Machine
end

