-- ==== Sys2Proof/Machine/Codec.lean ====
section
/-! DEFINITION. What ENCODE and DECODE share whatever their engine (spec 44_codec.md R180 to R187): the input checks, the
codeword, the verdict. An engine is a function from the input's bits and the state to its result and the state it leaves. -/

namespace Sys2Proof.Machine

/-- `EncodeChecks(cs)` (R181). -/
def encodeChecks (s : State) (cs : List Octet) : Option Status :=
  if s.polyValid = false then some .noPolynomial
  else if cs.length = 0 then some .emptyInput
  else if cs.any (fun c => !isBinary c) then some .nonBinaryCharacter
  else none

/-- `DecodeChecks(cs)` (R182). -/
def decodeChecks (s : State) (cs : List Octet) : Option Status :=
  if s.polyValid = false then some .noPolynomial
  else if cs.length = 0 then some .emptyInput
  else if cs.any (fun c => !isBinary c) then some .nonBinaryCharacter
  else if cs.length < s.degree then some .tooShort
  else none

/-- `m ++ bits_d(rem)` (R183). -/
def codeword (m : List Bool) (d rem : Nat) : List Bool := m ++ bitsN d rem

/-- ENCODE on its received characters: the checks, the engine, the codeword on DOUT (R123, R163). -/
def encodeBody (engine : List Bool → State → Nat × State) (cs : List Octet) (s : State) : Result :=
  match encodeChecks s cs with
  | some st => raise st s
  | none =>
    .next ((engine (bitsOf cs) s).2.respond [Reply.word { status := .ok }]
      (charsOf (codeword (bitsOf cs) s.degree (engine (bitsOf cs) s).1)))

/-- DECODE on its received characters: the checks, the engine, the verdict in RW0 (R124, R164, R184). -/
def decodeBody (engine : List Bool → State → Bool × State) (cs : List Octet) (s : State) : Result :=
  match decodeChecks s cs with
  | some st => raise st s
  | none =>
    .next ((engine (bitsOf cs) s).2.respond [Reply.word { status := .ok, verdict := (engine (bitsOf cs) s).1 }] [])

end Sys2Proof.Machine
end

