-- ==== Sys2Proof/Machine/Bitwise.lean ====
section
/-! DEFINITION. The bitwise engine, the ground truth (spec 41_bitwise_engine.md R120 to R125), and ENCODE.BW and DECODE.BW. -/

namespace Sys2Proof.Machine

/-- The scan of R120 and R121 over the `k` positions `d + k - 1` down to `d`: where bit `i` of the register is 1, XOR in `P`
with its leading bit aligned there, that is `P << (i - d)`. -/
def divideFrom (P d : Nat) : Nat → Nat → Nat
  | 0, A => A
  | k + 1, A => divideFrom P d k (if A.testBit (d + k) then A ^^^ (P <<< k) else A)

/-- `BW_ENC(m, P, d)`: the augmented register, `L` positions from `L + d - 1` to `d` (R120). -/
def bwEnc (m : List Bool) (P d : Nat) : Nat := divideFrom P d m.length (val m <<< d) &&& mask d

/-- `BW_REM(c, P, d)`: no augmentation, `L - d` positions from `L - 1` to `d` (R121). -/
def bwRem (c : List Bool) (P d : Nat) : Nat := divideFrom P d (c.length - d) (val c) &&& mask d

/-- ENCODE.BW's engine: the cache is not touched (R123). -/
def bwEncodeEngine (m : List Bool) (s : State) : Nat × State := (bwEnc m s.poly s.degree, s)

/-- DECODE.BW's engine: valid when the remainder is exactly zero (R124). -/
def bwDecodeEngine (c : List Bool) (s : State) : Bool × State := (bwRem c s.poly s.degree == 0, s)

/-- `encode.bw` (R123). -/
def execEncodeBw (len : Nat) (s : State) : Result := receive (.encodeBw len) s (encodeBody bwEncodeEngine)

/-- `decode.bw` (R124). -/
def execDecodeBw (len : Nat) (s : State) : Result := receive (.decodeBw len) s (decodeBody bwDecodeEngine)

end Sys2Proof.Machine
end

