-- ==== Sys2Proof/Machine/Table.lean ====
section
/-! DEFINITION. The table generator and the one-slot cache (spec 42_table_generator.md R140 to R148), the single-bit register
step they share with the table engine (43_table_engine.md R161), and TREAD (R145). -/

namespace Sys2Proof.Machine

/-- `STEP1(r, b)`: the bit leaving the register, plus the incoming bit, decides whether `Plow = P & mask_d` is XORed into the
shifted register (R161). -/
def step1 (P d r : Nat) (b : Bool) : Nat :=
  if (r.testBit (d - 1) ^^ b) = true then ((r <<< 1) &&& mask d) ^^^ (P &&& mask d) else (r <<< 1) &&& mask d

/-- `TableEntry(P, W, i)`: `i` left-aligned in a `d`-bit register and eight steps fed zero bits (R140). -/
def tableEntry (P W i : Nat) : Nat := (List.replicate 8 false).foldl (step1 P (W - 1)) (i <<< (W - 1 - 8))

/-- The 256 entries a build writes, each `zext_127(TableEntry(P, W, i))` (R142). -/
def buildTable (P W : Nat) : Table :=
  ⟨((List.range 256).map (fun i => BitVec.ofNat 127 (tableEntry P W i))).toArray, by simp⟩

/-- The slot is valid and its key is the active polynomial, bits and width (R142, 10_state.md R26). -/
def State.keyMatches (s : State) : Bool :=
  s.tblValid && s.tblKeyBits == s.polyBits && s.tblKeyWidth == s.polyWidth

/-- `GetTable()`: none below degree 8, the cache left untouched; else the table, built first where the key does not match (R142). -/
def getTable (s : State) : Option Table × State :=
  if s.degree < Config.tableMinDegree then (none, s)
  else if s.keyMatches then (some s.tbl, s)
  else (some (buildTable s.poly s.polyWidth.toNat),
    s.setTable (buildTable s.poly s.polyWidth.toNat) s.polyBits s.polyWidth)

/-- `tread` (R145). -/
def execTread (index : BitVec 8) (s : State) : Result :=
  if s.polyValid then
    match getTable s with
    | (none, s') => raise .noTable s'
    | (some t, s') => .next (s'.respond (Reply.word { status := .ok } :: payload ((entry t index).zeroExtend 128)) [])
  else raise .noPolynomial s

end Sys2Proof.Machine
end

