-- ==== Sys2Proof/Machine/TableEngine.lean ====
section
/-! DEFINITION. The table-driven engine with its bitwise fallback (spec 43_table_engine.md R160 to R164), and ENCODE.TBL and
DECODE.TBL. -/

namespace Sys2Proof.Machine

/-- `STEPB(r, byte, T)`: the byte XORed with the register's top byte is the index (R162). -/
def stepB (d : Nat) (t : Table) (r byte : Nat) : Nat :=
  ((r <<< 8) &&& mask d) ^^^ (entry t (BitVec.ofNat 8 ((r >>> (d - 8)) ^^^ byte))).toNat

/-- The register over `n` full bytes of `s` and then over what is left, bit by bit, without resetting it (R160). -/
def tblRegFrom (P d : Nat) (t : Table) : Nat → Nat → List Bool → Nat
  | 0, r, s => s.foldl (step1 P d) r
  | n + 1, r, s => tblRegFrom P d t n (stepB d t r (val (s.take 8))) (s.drop 8)

/-- `TBL_REG(s, T)`: from zero, `len(s) div 8` full bytes and the tail (R160, 20_memory.md R55). -/
def tblReg (P d : Nat) (t : Table) (s : List Bool) : Nat := tblRegFrom P d t (s.length / 8) 0 s

/-- ENCODE.TBL's engine; without a table the whole message goes to the bitwise engine (R163). -/
def tblEncodeEngine (m : List Bool) (s : State) : Nat × State :=
  match getTable s with
  | (none, s') => (bwEnc m s.poly s.degree, s')
  | (some t, s') => (tblReg s.poly s.degree t m, s')

/-- DECODE.TBL's engine: the register over the message part is compared with the check bits (R164, 90_conflicts.md C3);
without a table the whole codeword goes to the bitwise engine. -/
def tblDecodeEngine (c : List Bool) (s : State) : Bool × State :=
  match getTable s with
  | (none, s') => (bwRem c s.poly s.degree == 0, s')
  | (some t, s') =>
    (tblReg s.poly s.degree t (c.take (c.length - s.degree)) == val (c.drop (c.length - s.degree)), s')

/-- `encode.tbl` (R163). -/
def execEncodeTbl (len : Nat) (s : State) : Result := receive (.encodeTbl len) s (encodeBody tblEncodeEngine)

/-- `decode.tbl` (R164). -/
def execDecodeTbl (len : Nat) (s : State) : Result := receive (.decodeTbl len) s (decodeBody tblDecodeEngine)

end Sys2Proof.Machine
end

