-- ==== Sys2Proof/Machine/Validator.lean ====
section
/-! DEFINITION. VALIDATE and QPOLY (spec 40_validator.md R100 to R105). -/

namespace Sys2Proof.Machine

/-- The four content checks on the stripped string, in their order (R100, R102). -/
def checkContent (wsSet : List Octet) (ew : Nat) (s : List Octet) : Option Status :=
  if s.length = 0 then some .empty
  else if s.any (fun c => classOf wsSet c == .other) then some .nonBinaryCharacter
  else if s.length ≠ ew then some .lengthMismatch
  else if s.head?.map (classOf wsSet) ≠ some .one then some .missingLeadingTerm
  else none

/-- VALIDATE on its received characters (R100). -/
def validateBody (fam : Family) (imm8 : BitVec 8) (cs : List Octet) (s : State) : Result :=
  match expectedWidth fam imm8 with
  | none => raise .invalidWidth s
  | some ew =>
    match checkContent s.wsSet ew (stripWs s.wsSet cs) with
    | some st => raise st s
    | none =>
      .next ((s.setPoly (BitVec.ofNat 128 (val (bitsOf (stripWs s.wsSet cs)))) (BitVec.ofNat 8 ew)).respond
        [Reply.word { status := .ok, rwidth := BitVec.ofNat 8 ew }] [])

/-- `validate` (R100). -/
def execValidate (fam : Family) (imm8 : BitVec 8) (len : Nat) (s : State) : Result :=
  receive (.validate fam imm8 len) s (validateBody fam imm8)

/-- `qpoly` (R104). -/
def execQpoly (s : State) : Result :=
  if s.polyValid then
    .next (s.respond
      (Reply.word { status := .ok, ndx := ndxFlag s.polyBits, dxp1 := dxp1Flag s.polyBits, rwidth := s.polyWidth }
        :: payload s.polyBits) [])
  else raise .noPolynomial s

end Sys2Proof.Machine
end

