-- ==== Sys2Proof/Machine/Dispatch.lean ====
section
/-! DEFINITION. exec: one arm per constructor of Instr (spec 30_encoding.md R63). -/

namespace Sys2Proof.Machine

/-- The effect of a command whose words have left CMD. -/
def exec (i : Instr) (s : State) : Host.Outcome State Fault Refusal :=
  match i with
  | .validate fam imm8 len => Sys2Proof.Machine.execValidate fam imm8 len s
  | .encodeBw len => Sys2Proof.Machine.execEncodeBw len s
  | .encodeTbl len => Sys2Proof.Machine.execEncodeTbl len s
  | .decodeBw len => Sys2Proof.Machine.execDecodeBw len s
  | .decodeTbl len => Sys2Proof.Machine.execDecodeTbl len s
  | .tread index => Sys2Proof.Machine.execTread index s
  | .qpoly => Sys2Proof.Machine.execQpoly s

end Sys2Proof.Machine
end

