-- ==== Sys2Proof/WellFormed.lean ====
section
/-! DEFINITION. Which terms of Instr are commands: LEN fits its 32-bit word (30_encoding.md R61, 20_memory.md R54).
Every other field is typed by its width, and no value of it is illegal at decode (R65, R68). -/

namespace Sys2Proof

/-- The check, computable: LEN is at most 2^32 - 1 (R54). -/
def Instr.wf : Instr → Bool
  | .validate _ _ len => decide (len < 2 ^ 32)
  | .encodeBw len => decide (len < 2 ^ 32)
  | .encodeTbl len => decide (len < 2 ^ 32)
  | .decodeBw len => decide (len < 2 ^ 32)
  | .decodeTbl len => decide (len < 2 ^ 32)
  | .tread _ => true
  | .qpoly => true

/-- A term that an encoding exists for. -/
abbrev Instr.WellFormed (i : Instr) : Prop := i.wf = true

end Sys2Proof
end

