-- ==== Sys2Proof/Decode.lean ====
section
/-! DEFINITION. Decoding and encoding of command words (spec 30_encoding.md R60 to R74), and the assembly syntax of R72 and R73.
Decoding is total: a CW is one of the seven legal forms or illegal for a named reason (R66, R68). -/

namespace Sys2Proof

/-! ### Fields of a command word (R60) -/

/-- `OP`, CW[7:0]. -/
def fieldOp (cw : Word) : BitVec 8 := cw.extractLsb' 0 8

/-- `T`, CW[8]. -/
def fieldT (cw : Word) : Bool := cw.getLsbD 8

/-- `FAM`, CW[11:9]. -/
def fieldFam (cw : Word) : BitVec 3 := cw.extractLsb' 9 3

/-- `RSV0`, CW[15:12]. -/
def fieldRsv0 (cw : Word) : BitVec 4 := cw.extractLsb' 12 4

/-- `IMM8`, CW[23:16]. -/
def fieldImm8 (cw : Word) : BitVec 8 := cw.extractLsb' 16 8

/-- `RSV1`, CW[31:24]. -/
def fieldRsv1 (cw : Word) : BitVec 8 := cw.extractLsb' 24 8

/-- `RSV0` and `RSV1` are 0, as every command needs (R63). -/
def reservedZero (cw : Word) : Bool := fieldRsv0 cw == 0#4 && fieldRsv1 cw == 0#8

/-- The family of a FAM code (R64). -/
def Family.ofCode (c : BitVec 3) : Family :=
  if c = 0#3 then .crc8
  else if c = 1#3 then .crc16
  else if c = 2#3 then .crc32
  else if c = 3#3 then .crc64
  else if c = 4#3 then .custom
  else if c = 5#3 then .reserved5
  else if c = 6#3 then .reserved6
  else .reserved7

/-- The FAM code of a family (R64). -/
def Family.code : Family → BitVec 3
  | .crc8 => 0#3
  | .crc16 => 1#3
  | .crc32 => 2#3
  | .crc64 => 3#3
  | .custom => 4#3
  | .reserved5 => 5#3
  | .reserved6 => 6#3
  | .reserved7 => 7#3

/-! ### The mask and match rows (R67) -/

/-- A row of R67: a bit of `mask` that is 1 is fixed, to the bit of `pattern` there. -/
structure Row where
  mnemonic : String
  pattern : Word
  mask : Word
deriving DecidableEq, Repr

/-- The seven rows of R67, as spec/opcode_table.json has them. -/
def rows : List Row := [
  ⟨"validate", 0x00000001#32, 0xFF00F1FF#32⟩,
  ⟨"encode.bw", 0x00000002#32, 0xFFFFFFFF#32⟩,
  ⟨"encode.tbl", 0x00000102#32, 0xFFFFFFFF#32⟩,
  ⟨"decode.bw", 0x00000003#32, 0xFFFFFFFF#32⟩,
  ⟨"decode.tbl", 0x00000103#32, 0xFFFFFFFF#32⟩,
  ⟨"tread", 0x00000004#32, 0xFF00FFFF#32⟩,
  ⟨"qpoly", 0x00000005#32, 0xFFFFFFFF#32⟩]

/-- A command word fits a row (R66, "Formally"). -/
def Row.fits (r : Row) (cw : Word) : Bool := cw &&& r.mask == r.pattern

/-- The row a command is an instance of. -/
def Instr.mnemonic : Instr → String
  | .validate _ _ _ => "validate"
  | .encodeBw _ => "encode.bw"
  | .encodeTbl _ => "encode.tbl"
  | .decodeBw _ => "decode.bw"
  | .decodeTbl _ => "decode.tbl"
  | .tread _ => "tread"
  | .qpoly => "qpoly"

/-! ### Decoding -/

/-- Why a CW is illegal: the two cases of R66. -/
inductive IllegalReason where
  /-- R66 (a): OP is not one of 0x01 to 0x05. -/
  | unknownOpcode
  /-- R66 (b): a "must be 0" field of that OP, or RSV0 or RSV1, is not 0. -/
  | nonzeroField
deriving DecidableEq, Repr

/-- What a legal CW alone says, before its LEN word. -/
inductive Head where
  | validate (fam : Family) (imm8 : BitVec 8)
  | encode (t : Bool)
  | decode (t : Bool)
  | tread (index : BitVec 8)
  | qpoly
deriving DecidableEq, Repr

/-- Which command words take a LEN word: OP 0x01, 0x02 and 0x03 (R62). -/
def Head.takesLen : Head → Bool
  | .validate _ _ => true
  | .encode _ => true
  | .decode _ => true
  | .tread _ => false
  | .qpoly => false

/-- The command of a CW and its LEN word; the T bit selects the engine (R63, 44_codec.md R180). -/
def Head.toInstr (len : Nat) : Head → Instr
  | .validate fam imm8 => .validate fam imm8 len
  | .encode false => .encodeBw len
  | .encode true => .encodeTbl len
  | .decode false => .decodeBw len
  | .decode true => .decodeTbl len
  | .tread index => .tread index
  | .qpoly => .qpoly

/-- A CW by its fields (R63), with R66's two reasons where it is illegal. -/
def decodeCW (cw : Word) : Except IllegalReason Head :=
  if fieldOp cw = 0x01#8 then
    if reservedZero cw && !fieldT cw then
      .ok (.validate (Family.ofCode (fieldFam cw)) (fieldImm8 cw))
    else .error .nonzeroField
  else if fieldOp cw = 0x02#8 then
    if reservedZero cw && fieldFam cw == 0#3 && fieldImm8 cw == 0#8 then .ok (.encode (fieldT cw))
    else .error .nonzeroField
  else if fieldOp cw = 0x03#8 then
    if reservedZero cw && fieldFam cw == 0#3 && fieldImm8 cw == 0#8 then .ok (.decode (fieldT cw))
    else .error .nonzeroField
  else if fieldOp cw = 0x04#8 then
    if reservedZero cw && !fieldT cw && fieldFam cw == 0#3 then .ok (.tread (fieldImm8 cw))
    else .error .nonzeroField
  else if fieldOp cw = 0x05#8 then
    if reservedZero cw && !fieldT cw && fieldFam cw == 0#3 && fieldImm8 cw == 0#8 then .ok .qpoly
    else .error .nonzeroField
  else .error .unknownOpcode

/-- What the words on CMD begin with. -/
inductive Decoded where
  /-- A whole command, and the words after it. -/
  | command (i : Instr) (rest : List Word)
  /-- An illegal CW: one word is consumed, whatever follows (R66, 60_exceptions.md R210). -/
  | illegal (why : IllegalReason) (rest : List Word)
  /-- CMD holds no CW, or a legal CW whose LEN word has not come. -/
  | incomplete
deriving DecidableEq, Repr

/-- Decode the words on CMD, oldest first (R61, R62). -/
def decode : List Word → Decoded
  | [] => .incomplete
  | cw :: rest =>
    match decodeCW cw with
    | .error why => .illegal why rest
    | .ok head =>
      if head.takesLen then
        match rest with
        | [] => .incomplete
        | len :: rest' => .command (head.toInstr len.toNat) rest'
      else .command (head.toInstr 0) rest

/-! ### Encoding (R60, R61, R63) -/

/-- A command word from its fields, RSV0 and RSV1 zero (R60). -/
def assembleCW (op : BitVec 8) (t : Bool) (fam : BitVec 3) (imm8 : BitVec 8) : Word :=
  0#8 ++ imm8 ++ 0#4 ++ fam ++ BitVec.ofBool t ++ op

/-- The words of a command on CMD, CW first (R61, R63). -/
def encode : Instr → List Word
  | .validate fam imm8 len => [assembleCW 0x01#8 false fam.code imm8, BitVec.ofNat 32 len]
  | .encodeBw len => [assembleCW 0x02#8 false 0#3 0#8, BitVec.ofNat 32 len]
  | .encodeTbl len => [assembleCW 0x02#8 true 0#3 0#8, BitVec.ofNat 32 len]
  | .decodeBw len => [assembleCW 0x03#8 false 0#3 0#8, BitVec.ofNat 32 len]
  | .decodeTbl len => [assembleCW 0x03#8 true 0#3 0#8, BitVec.ofNat 32 len]
  | .tread index => [assembleCW 0x04#8 false 0#3 index]
  | .qpoly => [assembleCW 0x05#8 false 0#3 0#8]

/-! ### Assembly syntax (R72) and pseudo-instructions (R73) -/

/-- The family operand of a `validate` line (R72). -/
inductive AsmFamily where
  | crc8 | crc16 | crc32 | crc64
  | custom (w : BitVec 8)
deriving DecidableEq, Repr

/-- One line of assembly; a string operand is its octets (R72). The last five are the pseudo-instructions of R73. -/
inductive Asm where
  | validate (fam : AsmFamily) (s : List Octet)
  | encodeBw (s : List Octet)
  | encodeTbl (s : List Octet)
  | decodeBw (s : List Octet)
  | decodeTbl (s : List Octet)
  | tread (i : BitVec 8)
  | qpoly
  | word (v : Word)
  | encode (s : List Octet)
  | decode (s : List Octet)
  | encodeT (s : List Octet) (b : Bool)
  | decodeT (s : List Octet) (b : Bool)
  | validateW (n : BitVec 8) (s : List Octet)
deriving DecidableEq, Repr

/-- The expansion of a pseudo-instruction; any other line is its own (R73). -/
def Asm.expand : Asm → Asm
  | .encode s => .encodeBw s
  | .decode s => .decodeBw s
  | .encodeT s b => if b then .encodeTbl s else .encodeBw s
  | .decodeT s b => if b then .decodeTbl s else .decodeBw s
  | .validateW n s => .validate (.custom n) s
  | a => a

/-- The words a line writes on CMD (R72): LEN is the number of octets of the string. -/
def Asm.words (a : Asm) : List Word :=
  match a.expand with
  | .validate .crc8 s => Sys2Proof.encode (.validate .crc8 0#8 s.length)
  | .validate .crc16 s => Sys2Proof.encode (.validate .crc16 0#8 s.length)
  | .validate .crc32 s => Sys2Proof.encode (.validate .crc32 0#8 s.length)
  | .validate .crc64 s => Sys2Proof.encode (.validate .crc64 0#8 s.length)
  | .validate (.custom w) s => Sys2Proof.encode (.validate .custom w s.length)
  | .encodeBw s => Sys2Proof.encode (.encodeBw s.length)
  | .encodeTbl s => Sys2Proof.encode (.encodeTbl s.length)
  | .decodeBw s => Sys2Proof.encode (.decodeBw s.length)
  | .decodeTbl s => Sys2Proof.encode (.decodeTbl s.length)
  | .tread i => Sys2Proof.encode (.tread i)
  | .qpoly => Sys2Proof.encode .qpoly
  | .word v => [v]
  | .encode _ | .decode _ | .encodeT _ _ | .decodeT _ _ | .validateW _ _ => []

/-- The octets a line sends on DIN (R72). -/
def Asm.chars (a : Asm) : List Octet :=
  match a.expand with
  | .validate _ s => s
  | .encodeBw s => s
  | .encodeTbl s => s
  | .decodeBw s => s
  | .decodeTbl s => s
  | _ => []

/-! ### Words as spec/opcode_table.json numbers their bits -/

/-- How many words a command takes, told from OP alone (R62). -/
def commandWords (cw : Word) : Nat :=
  if fieldOp cw = 0x01#8 || fieldOp cw = 0x02#8 || fieldOp cw = 0x03#8 then 2 else 1

/-- The words of an instruction whose bits are `w`, bit 0 the least significant of the first word: CW is bits 31..0 and
LEN bits 63..32, every bit from `nbits` up zero; as many words as OP asks for (R62). -/
def tableWords (nbits w : Nat) : List Word :=
  if commandWords (BitVec.ofNat 32 (w % 2 ^ nbits)) = 2 then
    [BitVec.ofNat 32 (w % 2 ^ nbits), BitVec.ofNat 32 ((w % 2 ^ nbits) >>> 32)]
  else [BitVec.ofNat 32 (w % 2 ^ nbits)]

/-- The instruction the decoder reads from such bits. -/
def decodeTableWord (nbits w : Nat) : Option Instr :=
  match decode (tableWords nbits w) with
  | .command i _ => some i
  | .illegal _ _ => none
  | .incomplete => none

end Sys2Proof
end

