-- ==== Sys2Proof/Machine/Fetch.lean ====
section
/-! DEFINITION. What the core does next with its channels (spec 20_memory.md R41, R48; 70_reset_and_hazards.md R240): which
command runs, on the state with the command's words removed from CMD, and when the host leaves the core no step. -/

namespace Sys2Proof.Machine

/-- The four things the core can find. -/
inductive Fetched where
  /-- CMD holds no whole command: the core waits (R41, R230). -/
  | wait
  /-- The host has broken duty (a) or (c): the core has no step (R240). -/
  | stuck (why : Fault)
  /-- An illegal CW, now removed from CMD (R210). -/
  | illegal (why : IllegalReason) (s : State)
  /-- A command, its words removed from CMD, or the command already in progress. -/
  | run (i : Instr) (s : State)
deriving DecidableEq, Repr

/-- The next command by the channels alone, in arrival order (R48); a command in progress goes on first (R47). -/
def nextCommand (s : State) : Fetched :=
  match s.inProgress with
  | some i => .run i s
  | none =>
    match decode s.cmd with
    | .incomplete => .wait
    | .illegal why rest => .illegal why (s.setCmd rest)
    | .command i rest => .run i (s.setCmd rest)

/-- What the core does next: the next command, or no step from the moment the host has broken duty (a) or (c): "A model gives
the core no step in that case" (R240, 93_implementation_defined.md I4). -/
def fetch (s : State) : Fetched :=
  match s.host with
  | .keepsDuties => nextCommand s
  | .sentEarly => .stuck .stuckResponseUnread
  | .stopsDraining => .stuck .stuckNotDrained

end Sys2Proof.Machine
end

