-- ==== Sys2Proof/Machine/Step.lean ====
section
/-! DEFINITION. One step of the machine, and the state with a given instruction as its next one. -/

namespace Sys2Proof.Machine

/-- One step: a whole command is one atomic transition (spec 20_memory.md R47). Waiting for an item leaves the state as it is
(R41; log entry 7). -/
def step (s : State) : Host.Outcome State Fault Refusal :=
  match fetch s with
  | .wait => .next s
  | .stuck why => .fault why
  | .illegal _ s' => illegalCommand s'
  | .run i s' => exec i s'

/-- `s` with an instruction's words at the head of CMD, no command in progress before it and a host that has broken no duty,
so that the next step runs it (log entry 8). -/
def State.withFetchWord (s : State) (nbits w : Nat) : State :=
  { s with cmd := tableWords nbits w ++ s.cmd, inProgress := none, host := .keepsDuties }

end Sys2Proof.Machine
end

