-- ==== Sys2Proof/Machine/HostPort.lean ====
section
/-! DEFINITION. What the host can do to the machine (spec 20_memory.md R41, 70_reset_and_hazards.md R230, R231, R240): named
operations on the state, not steps of the core. -/

namespace Sys2Proof.Machine

/-! ### What the host has yet to read, (R240 (a); log entry 15) -/

/-- Payload words the host has to read after RW0: four, where RW0 has status OK and the CW it sent is a TREAD or a QPOLY (R45). -/
def payloadDue (cw rw0 : Word) : Nat :=
  if rw0.extractLsb' 0 8 = 0#8 ∧ (fieldOp cw = 0x04#8 ∨ fieldOp cw = 0x05#8) then 4 else 0

/-- DOUT characters the host has to read: `LEN + d`, where RW0 has status OK and the CW it sent is an ENCODE (R45, R240 (a)). -/
def charsDue (cw : Word) (len : Option Word) (d : Nat) (rw0 : Word) : Nat :=
  if rw0.extractLsb' 0 8 = 0#8 ∧ fieldOp cw = 0x02#8 then (len.getD 0#32).toNat + d else 0

/-- After the host has read a word of RESP, the active polynomial having degree `d`: the first is RW0 to it. -/
def Unread.afterWord (w : Word) (d : Nat) : Unread → Unread
  | .response cw len got => .items (payloadDue cw w) (charsDue cw len d w - got)
  | .items words chars => .items (words - 1) chars

/-- After the host has read a character of DOUT. -/
def Unread.afterChar : Unread → Unread
  | .response cw len got => .response cw len (got + 1)
  | .items words chars => .items words (chars - 1)

/-- After the host has sent a LEN, or none, for a CW it sent without. -/
def Unread.withLen (len : Option Word) : Unread → Unread
  | .response cw none got => .response cw len got
  | .response cw (some l) got => .response cw (some l) got
  | .items words chars => .items words chars

/-- The host has read RW0 of the response it is at, by its own framing. -/
def Unread.rw0Read : Unread → Bool
  | .response _ _ _ => false
  | .items _ _ => true

/-- The host has read the whole response before the next CW (R240 (a)), by its own framing or by the core's: nothing is left of
what its CW and LEN lead it to expect; or it has read RW0 and all that the commands the core decoded have sent, none of them is in
progress, and CMD holds none that has not run. The two differ only once duty (b) is broken (log entry 15). -/
def State.readWhole (s : State) : Bool :=
  s.unread == .items 0 0 ||
    (s.unread.rw0Read && s.inProgress.isNone && s.resp.isEmpty && s.dout.isEmpty && decode s.cmd == .incomplete)

/-! ### The host's acts -/

/-- What is noted when the host breaks a duty: the first one broken stays (R240; log entry 4). -/
def HostConduct.breaking (noted duty : HostConduct) : HostConduct :=
  match noted with
  | .keepsDuties => duty
  | .sentEarly => .sentEarly
  | .stopsDraining => .stopsDraining

/-- The host sends the next CW, with the LEN and the characters it sends at once (R41). Where it has not read the whole response
of the command before (`readWhole`), this breaks duty (a) (R240). Whether LEN and the characters are those the opcode takes is duty (b), and
the core frames what comes by its own rules (R44, 60_exceptions.md R210). That there is always room for them is the model's
choice: the spec states no depth of CMD and DIN (log entry 14). -/
def State.hostSend (s : State) (cw : Word) (len : Option Word) (cs : List Octet) : State :=
  { s with
    cmd := s.cmd ++ cw :: len.toList, din := s.din ++ cs,
    host := if s.readWhole then s.host else s.host.breaking .sentEarly,
    unread := .response cw len 0 }

/-- The host goes on with the command it has begun: its LEN, where not yet sent, and more characters (R41, R240 (b); room as for
`hostSend`, log entry 14). -/
def State.hostSendRest (s : State) (len : Option Word) (cs : List Octet) : State :=
  { s with cmd := s.cmd ++ len.toList, din := s.din ++ cs, unread := s.unread.withLen len }

/-- The host sends one line of assembly, which is one command: CW, and LEN where the line has one (30_encoding.md R72). -/
def State.hostSendLine (s : State) (a : Asm) : State :=
  match a.words with
  | [] => s
  | cw :: rest => s.hostSend cw rest.head? a.chars

/-- The host reads one word of RESP, which removes it (R41, R47); none while RESP is empty. -/
def State.hostReadResp (s : State) : Option Word × State :=
  match s.resp with
  | [] => (none, s)
  | w :: rest => (some w, { s with resp := rest, unread := s.unread.afterWord w s.degree })

/-- The host reads one octet of DOUT, which removes it (R41); none while DOUT is empty. -/
def State.hostReadDout (s : State) : Option Octet × State :=
  match s.dout with
  | [] => (none, s)
  | c :: rest => (some c, { s with dout := rest, unread := s.unread.afterChar })

/-- The host stops draining RESP and DOUT: it breaks duty (c) (R240, 93_implementation_defined.md I4). -/
def State.hostStopsDraining (s : State) : State := { s with host := s.host.breaking .stopsDraining }

/-- Reset, at any time: a command in progress is abandoned, what the host had queued is discarded, and the state becomes the
reset state (R230, R231), from which the host's duties count anew. The build's WS_SET is no state of the core and stays (log
entry 10). -/
def State.hostReset (s : State) : State := { State.reset with wsSet := s.wsSet }

end Sys2Proof.Machine
end

