-- ==== Sys2Proof/Safety.lean ====
section
/-! DEFINITION. The terms statements are made in: the invariants of reachable states (spec 10_state.md R24, R29), polynomials
over GF(2) (00_scope.md R14), what a safe step is, and names for groups of commands. -/

namespace Sys2Proof.Machine

/-! ### Invariants -/

/-- R24: the polynomial group. -/
abbrev State.PolyInv (s : State) : Prop :=
  (s.polyValid = false → s.polyBits = 0#128 ∧ s.polyWidth = 0#8) ∧
  (s.polyValid = true →
    2 ≤ s.polyWidth.toNat ∧ s.polyWidth.toNat ≤ 128 ∧ s.polyBits.toNat >>> (s.polyWidth.toNat - 1) = 1)

/-- R29: the table cache, with the key's width bounded as R23 bounds the width of the polynomial it was copied from
(DEDUCED, log entry 9). -/
abbrev State.CacheInv (s : State) : Prop :=
  s.tblValid = true →
    8 ≤ s.tblKeyWidth.toNat - 1 ∧ s.tblKeyWidth.toNat ≤ 128 ∧
    s.tblKeyBits.toNat >>> (s.tblKeyWidth.toNat - 1) = 1 ∧
    ∀ i : BitVec 8, (entry s.tbl i).toNat = tableEntry s.tblKeyBits.toNat s.tblKeyWidth.toNat i.toNat

/-- R11: `WS_SET` contains neither `0` nor `1`. -/
abbrev State.WsInv (s : State) : Prop := Config.charZero ∉ s.wsSet ∧ Config.charOne ∉ s.wsSet

/-- What holds of every reachable state. -/
abbrev State.Inv (s : State) : Prop := s.PolyInv ∧ s.CacheInv ∧ s.WsInv

/-- A step that does not stop. -/
def State.StepSafe (s : State) : Prop := ∃ t, step s = .next t

/-! ### Polynomials over GF(2) (R14) -/

/-- The product of the polynomial whose coefficients are the bits of `q`, highest first, and the polynomial `p`: shift and add,
where adding is XOR. -/
def gfMul (q : List Bool) (p : Nat) : Nat := q.foldl (fun acc b => (acc <<< 1) ^^^ (if b then p else 0)) 0

/-- `a` is a polynomial multiple of `p`. -/
def GfDivides (p a : Nat) : Prop := ∃ q : List Bool, a = gfMul q p

/-- `r = a mod2 p` for a `p` of degree `d`: `r` has degree below `d` and `a ^ r` is a multiple of `p` (R14). -/
def IsRemainder (a p d r : Nat) : Prop := r < 2 ^ d ∧ GfDivides p (a ^^^ r)

/-- A polynomial value of degree exactly `d` (R120). -/
abbrev HasDegree (P d : Nat) : Prop := P >>> d = 1

/-! ### Command words and operands, by arithmetic on their values -/

/-- CW[lo + n - 1 : lo] as a natural number (R13). -/
abbrev cwBits (cw : Word) (lo n : Nat) : Nat := cw.toNat / 2 ^ lo % 2 ^ n

/-- 30_encoding.md R66: (a) OP is not 0x01 to 0x05, or (b) a field that R63 marks "must be 0" for that OP is not 0. -/
abbrev IllegalWord (cw : Word) : Prop :=
  ¬ (1 ≤ cwBits cw 0 8 ∧ cwBits cw 0 8 ≤ 5) ∨
  cwBits cw 12 4 ≠ 0 ∨ cwBits cw 24 8 ≠ 0 ∨
  (cwBits cw 0 8 = 1 ∧ cwBits cw 8 1 ≠ 0) ∨
  ((cwBits cw 0 8 = 2 ∨ cwBits cw 0 8 = 3) ∧ (cwBits cw 9 3 ≠ 0 ∨ cwBits cw 16 8 ≠ 0)) ∨
  (cwBits cw 0 8 = 4 ∧ (cwBits cw 8 1 ≠ 0 ∨ cwBits cw 9 3 ≠ 0)) ∨
  (cwBits cw 0 8 = 5 ∧ (cwBits cw 8 1 ≠ 0 ∨ cwBits cw 9 3 ≠ 0 ∨ cwBits cw 16 8 ≠ 0))

/-- A line of assembly (30_encoding.md R72) writes exactly one command's words on CMD, and these octets on DIN. -/
abbrev LineWrites (a : Asm) (i : Instr) (cs : List Octet) : Prop := decode a.words = .command i [] ∧ a.chars = cs

/-- 30_encoding.md R64: `ew` is the expected width of the family, and for the custom family IMM8 is in 2..128. -/
abbrev HasWidth (fam : Family) (imm8 : BitVec 8) (ew : Nat) : Prop :=
  (fam = .crc8 ∧ ew = 9) ∨ (fam = .crc16 ∧ ew = 17) ∨ (fam = .crc32 ∧ ew = 33) ∨ (fam = .crc64 ∧ ew = 65) ∨
  (fam = .custom ∧ ew = imm8.toNat ∧ 2 ≤ ew ∧ ew ≤ 128)

/-- The complement (R64, 40_validator.md R100): FAM 5 to 7, or a custom IMM8 outside 2..128. -/
abbrev WidthInvalid (fam : Family) (imm8 : BitVec 8) : Prop :=
  fam = .reserved5 ∨ fam = .reserved6 ∨ fam = .reserved7 ∨ (fam = .custom ∧ (imm8.toNat < 2 ∨ 128 < imm8.toNat))

/-- Every octet is `0` or `1` (R16, "a binary string"). -/
abbrev AllBinary (cs : List Octet) : Prop := ∀ c ∈ cs, c = 0x30#8 ∨ c = 0x31#8

/-- The other character of `0` and `1`. -/
def flipChar (c : Octet) : Octet := if c = 0x31#8 then 0x30#8 else 0x31#8

/-- `cs` with the characters flipped at the positions where `e` is true. -/
def flipChars (e : List Bool) (cs : List Octet) : List Octet :=
  List.zipWith (fun b c => if b then flipChar c else c) e cs

/-! ### The host's duty (a) (70_reset_and_hazards.md R240) -/

/-- The host has read the whole response before the next CW: all its CW and LEN lead it to expect, or RW0 and all that the commands
the core decoded have sent, none in progress and none on CMD that has not run (log entry 15). -/
abbrev State.ReadWhole (s : State) : Prop :=
  s.unread = .items 0 0 ∨
  (s.unread.rw0Read = true ∧ s.inProgress = none ∧ s.resp = [] ∧ s.dout = [] ∧ decode s.cmd = .incomplete)

/-! ### Groups of commands and parts of the state -/

/-- All characters of the command have come. -/
abbrev Ready (i : Instr) (s : State) : Prop := i.dataLen ≤ s.din.length

/-- ENCODE with its T bit (44_codec.md R180). -/
def encodeWith (t : Bool) (len : Nat) : Instr := if t then .encodeTbl len else .encodeBw len

/-- DECODE with its T bit (44_codec.md R180). -/
def decodeWith (t : Bool) (len : Nat) : Instr := if t then .decodeTbl len else .decodeBw len

/-- The STATUS field of a response word (30_encoding.md R70). -/
abbrev statusOf (w : Word) : Nat := w.toNat % 256

/-- `s` after a command that took `n` characters from DIN, sent `ws` on RESP and `cs` on DOUT, and wrote no register. -/
def State.after (s : State) (n : Nat) (ws : List Word) (cs : List Octet) : State :=
  { s with din := s.din.drop n, resp := s.resp ++ ws, dout := s.dout ++ cs, inProgress := none }

/-- `s` with another table cache. -/
def State.withCache (s : State) (t : Table) (bits : BitVec 128) (width : BitVec 8) (valid : Bool) : State :=
  { s with tbl := t, tblKeyBits := bits, tblKeyWidth := width, tblValid := valid }

/-- `s` with the table cache of `u`. -/
def State.cacheOf (s u : State) : State := s.withCache u.tbl u.tblKeyBits u.tblKeyWidth u.tblValid

/-- The two states are the same but for the table cache. -/
abbrev State.SameButCache (s u : State) : Prop := s.cacheOf u = u

/-- The cache's key is the active polynomial (42_table_generator.md R142). -/
abbrev State.CacheHit (s : State) : Prop :=
  s.tblValid = true ∧ s.tblKeyBits = s.polyBits ∧ s.tblKeyWidth = s.polyWidth

/-- The table a table-path command uses: the cached one where the key matches, else the one it builds (R142). -/
def State.tableInUse (s : State) : Table :=
  if s.CacheHit then s.tbl else buildTable s.polyBits.toNat s.polyWidth.toNat

/-- `s` with the cache as a table-path command leaves it (R142). -/
def State.withTableInUse (s : State) : State := s.withCache s.tableInUse s.polyBits s.polyWidth true

/-- The two states hold the same polynomial group. -/
abbrev State.SamePoly (s u : State) : Prop :=
  u.polyBits = s.polyBits ∧ u.polyWidth = s.polyWidth ∧ u.polyValid = s.polyValid

/-- The two states hold the same table cache. -/
abbrev State.SameCache (s u : State) : Prop :=
  u.tbl = s.tbl ∧ u.tblKeyBits = s.tblKeyBits ∧ u.tblKeyWidth = s.tblKeyWidth ∧ u.tblValid = s.tblValid

end Sys2Proof.Machine
end

