-- ==== Sys2Proof/Certificates/Slice0/Obligations.lean ====
section
/-! DEFINITION. The statements for the provers, made from the numbered rules of spec/. The core has no memory (20_memory.md
R40): the clauses on memory of a frame have nothing to speak of, and the channels stand in its place. -/

open Sys2Proof Sys2Proof.Machine

/-! ### Encoding -/

/-- 30_encoding.md R60 to R65: decoding the words of a well-formed command gives it back, every operand at every value, and
leaves the words after it. -/
def Obligations.DecodeOfEncodeIsIdentity : Prop :=
  ∀ (i : Instr) (rest : List Word), i.WellFormed → decode (encode i ++ rest) = .command i rest

/-- The other direction: each word sequence has one meaning, so what decodes to a command is that command's encoding. -/
def Obligations.EncodeOfDecodeIsIdentity : Prop :=
  ∀ (ws : List Word) (i : Instr) (rest : List Word),
    decode ws = .command i rest → i.WellFormed ∧ ws = encode i ++ rest

/-- R66: a CW is illegal exactly by (a) or (b); exactly then it fits no row of R67; the rows never overlap; and an illegal CW is
consumed alone, ends with ILLEGAL_COMMAND (0x0A), takes nothing from DIN and changes no other state. -/
def Obligations.IllegalCommandWords : Prop :=
  (∀ cw : Word, IllegalWord cw ↔ ¬ ∃ r ∈ rows, cw &&& r.mask = r.pattern) ∧
  (rows.Pairwise fun r q => ¬ ∃ cw : Word, cw &&& r.mask = r.pattern ∧ cw &&& q.mask = q.pattern) ∧
  (∀ (s : State) (cw : Word) (rest : List Word), s.inProgress = none → s.host = .keepsDuties →
    s.cmd = cw :: rest → IllegalWord cw →
    step s = .next { s with cmd := rest, resp := s.resp ++ [0x0000000A#32] }) ∧
  (∀ (cw : Word) (why : IllegalReason), decodeCW cw = .error why → IllegalWord cw)

/-- R210: an illegal CW is a one-word command that takes nothing from DIN, changes no state and sends RW0 = 0x0000000A; the
word after it, whatever the host meant by it, is decoded as the next CW. How the hypotheses tell a host that has broken neither duty
(a) nor (c) of R240 is log entry 4. -/
def Obligations.WordAfterIllegalIsNextCommandWord : Prop :=
  ∀ (s : State) (cw next : Word) (rest : List Word), s.inProgress = none → s.host = .keepsDuties →
    s.cmd = cw :: next :: rest → IllegalWord cw →
    ∃ t, step s = .next t ∧ t = { s with cmd := next :: rest, resp := s.resp ++ [0x0000000A#32] } ∧
      (∀ u : State, u = t ∨ u = t.hostReadResp.2 →
        (IllegalWord next → step u = .next { u with cmd := rest, resp := u.resp ++ [0x0000000A#32] }) ∧
        (∀ (i : Instr) (rest' : List Word), decode (next :: rest) = .command i rest' →
          step u = exec i { u with cmd := rest' }))

/-- R74: the worked encodings, as lines of assembly and as the decoder reads them. A sanity statement. -/
def Obligations.WorkedEncodings : Prop :=
  (Asm.validate .crc8 [0x31#8, 0x30#8, 0x30#8, 0x30#8, 0x30#8, 0x30#8, 0x31#8, 0x31#8, 0x31#8]).words =
      [0x00000001#32, 0x00000009#32] ∧
  (Asm.validate .crc8 [0x31#8, 0x30#8, 0x30#8, 0x30#8, 0x30#8, 0x30#8, 0x31#8, 0x31#8, 0x31#8]).chars =
      [0x31#8, 0x30#8, 0x30#8, 0x30#8, 0x30#8, 0x30#8, 0x31#8, 0x31#8, 0x31#8] ∧
  (Asm.validate .crc16 []).words.head? = some 0x00000201#32 ∧
  (Asm.validate .crc32 []).words.head? = some 0x00000401#32 ∧
  (Asm.validate .crc64 []).words.head? = some 0x00000601#32 ∧
  (Asm.validate (.custom 4#8) [0x31#8, 0x30#8, 0x31#8, 0x31#8]).words = [0x00040801#32, 0x00000004#32] ∧
  (Asm.tread 0x80#8).words = [0x00800004#32] ∧ Asm.qpoly.words = [0x00000005#32] ∧
  decode [0x00000001#32, 0x00000009#32] = .command (.validate .crc8 0#8 9) [] ∧
  decode [0x00040801#32, 0x00000004#32] = .command (.validate .custom 4#8 4) [] ∧
  decode [0x00000002#32, 0x0000000E#32] = .command (.encodeBw 14) [] ∧
  decode [0x00000103#32, 0x00000016#32] = .command (.decodeTbl 22) [] ∧
  decode [0x00800004#32] = .command (.tread 0x80#8) [] ∧
  decode [0x00000005#32] = .command .qpoly []

/-- R72: each line writes the words of its command, with LEN the number of octets of its string, and that string on DIN;
`.word` writes its word verbatim and no octet. R73: each pseudo-instruction expands to its line, and writes what that line
writes. -/
def Obligations.AssemblyLinesDecode : Prop :=
  (∀ s : List Octet, s.length < 2 ^ 32 →
    LineWrites (.validate .crc8 s) (.validate .crc8 0#8 s.length) s ∧
    LineWrites (.validate .crc16 s) (.validate .crc16 0#8 s.length) s ∧
    LineWrites (.validate .crc32 s) (.validate .crc32 0#8 s.length) s ∧
    LineWrites (.validate .crc64 s) (.validate .crc64 0#8 s.length) s ∧
    (∀ w : BitVec 8, LineWrites (.validate (.custom w) s) (.validate .custom w s.length) s) ∧
    LineWrites (.encodeBw s) (.encodeBw s.length) s ∧
    LineWrites (.encodeTbl s) (.encodeTbl s.length) s ∧
    LineWrites (.decodeBw s) (.decodeBw s.length) s ∧
    LineWrites (.decodeTbl s) (.decodeTbl s.length) s) ∧
  (∀ i : BitVec 8, LineWrites (.tread i) (.tread i) []) ∧
  LineWrites .qpoly .qpoly [] ∧
  (∀ v : Word, (Asm.word v).words = [v] ∧ (Asm.word v).chars = []) ∧
  (∀ s : List Octet,
    (Asm.encode s).expand = .encodeBw s ∧ (Asm.decode s).expand = .decodeBw s ∧
    (Asm.encodeT s false).expand = .encodeBw s ∧ (Asm.encodeT s true).expand = .encodeTbl s ∧
    (Asm.decodeT s false).expand = .decodeBw s ∧ (Asm.decodeT s true).expand = .decodeTbl s ∧
    (∀ n : BitVec 8, (Asm.validateW n s).expand = .validate (.custom n) s)) ∧
  (∀ a : Asm, a.words = a.expand.words ∧ a.chars = a.expand.chars)

/-! ### Steps, channels, reset -/

/-- A step runs the decoded command, on the state with that command's words removed from CMD; a command in progress goes on.
The hypotheses leave out only a host that has broken duty (a) or (c) of R240, for which the core has no step. How the state tells
such a host, from which moment (a) is broken, and that a command in progress is held decoded, are the model's choices (log
entries 4, 15 and 6). -/
def Obligations.StepRunsDecodedCommand : Prop :=
  (∀ (s : State) (i : Instr) (rest : List Word), s.inProgress = none → s.host = .keepsDuties →
    decode s.cmd = .command i rest → step s = exec i { s with cmd := rest }) ∧
  (∀ (s : State) (i : Instr), s.inProgress = some i → s.host = .keepsDuties → step s = exec i s)

/-- 20_memory.md R41, 70_reset_and_hazards.md R230: the core waits while CMD holds no whole command, and a command whose
characters have not all come stays in progress, without a response and without any other change. That waiting shows as a next
state, and where the command is kept meanwhile, is the model's choice (log entries 6 and 7). -/
def Obligations.CoreWaitsForMissingItems : Prop :=
  (∀ s : State, s.inProgress = none → s.host = .keepsDuties → s.cmd = [] → step s = .next s) ∧
  (∀ (s : State) (cw : Word), s.inProgress = none → s.host = .keepsDuties → s.cmd = [cw] → ¬ IllegalWord cw →
    cwBits cw 0 8 ≤ 3 → step s = .next s) ∧
  (∀ (i : Instr) (s : State), s.din.length < i.dataLen → exec i s = .next { s with inProgress := some i })

/-- R240 (a), (c): the core has no step exactly from the moment the host has broken duty (a) or (c); until then every step answers a
next state. No step refuses. How the state tells such a host is the model's choice (log entry 4), and so is that the step of a
core that waits, for a CW or for an item of a command (R41, R230), answers a next state (log entries 6 and 7). -/
def Obligations.StuckExactlyWhenHostLeavesResponses : Prop :=
  ∀ s : State,
    (s.host = .sentEarly → step s = .fault .stuckResponseUnread) ∧
    (s.host = .stopsDraining → step s = .fault .stuckNotDrained) ∧
    (s.host = .keepsDuties → s.StepSafe)

/-- Every command answers a next state from every state. With its characters there that is the spec's: no command faults, traps
or is refused (60_exceptions.md R202, R229). With characters missing the command blocks (20_memory.md R41), and that the wait
shows as a next state is the model's choice (log entries 6 and 7). -/
def Obligations.EveryCommandAnswersNext : Prop := ∀ (i : Instr) (s : State), ∃ t, exec i s = .next t

/-- R230: what the spec states for reset. TBL is left open there, and nothing is said of it here. -/
def Obligations.ResetState : Prop :=
  State.reset.polyBits = 0#128 ∧ State.reset.polyWidth = 0#8 ∧ State.reset.polyValid = false ∧
  State.reset.tblKeyBits = 0#128 ∧ State.reset.tblKeyWidth = 0#8 ∧ State.reset.tblValid = false ∧
  State.reset.cmd = [] ∧ State.reset.din = [] ∧ State.reset.resp = [] ∧ State.reset.dout = [] ∧
  State.reset.inProgress = none ∧
  State.reset.PolyInv ∧ State.reset.CacheInv

/-- The invariants hold at reset (R24, R29, R230). -/
def Obligations.ResetMeetsInvariant : Prop := State.reset.Inv

/-- R24, R29: every step keeps the invariants of the polynomial group and of the table cache (the key's width bounded by 128,
log entry 9) and WS_SET's constraint of R11. -/
def Obligations.StepKeepsInvariant : Prop := ∀ s t : State, s.Inv → step s = .next t → t.Inv

/-- R231: a reset abandons the command in progress, discards what was queued, sends nothing, and leaves the reset state of
R230. That WS_SET, which is no state of the core, stays, and that the host's duties count anew, is the model's choice (log entry
10). -/
def Obligations.ResetDuringCommand : Prop :=
  ∀ s : State, s.hostReset.SamePoly State.reset ∧
    s.hostReset.tblKeyBits = 0#128 ∧ s.hostReset.tblKeyWidth = 0#8 ∧ s.hostReset.tblValid = false ∧
    s.hostReset.cmd = [] ∧ s.hostReset.din = [] ∧ s.hostReset.resp = [] ∧ s.hostReset.dout = [] ∧
    s.hostReset.inProgress = none ∧ s.hostReset.host = .keepsDuties ∧ s.hostReset.wsSet = s.wsSet ∧
    (s.Inv → s.hostReset.Inv)

/-- R41: what the host sends is taken in the order it was sent, after what was there, and what it reads is the oldest item,
which is removed; none of the host's acts touches a register. That there is always room on CMD and DIN, whatever and however much
the host sends, is the model's choice (log entry 14), and so are the fields that note a broken duty (log entry 4), which sending
a CW may write and nothing else here does, and what the host has yet to read (log entry 15). -/
def Obligations.HostChannelActs : Prop :=
  ∀ (s : State) (cw : Word) (len : Option Word) (cs : List Octet),
    (∃ h u, s.hostSend cw len cs =
      { s with cmd := s.cmd ++ cw :: len.toList, din := s.din ++ cs, host := h, unread := u }) ∧
    (∃ u, s.hostSendRest len cs = { s with cmd := s.cmd ++ len.toList, din := s.din ++ cs, unread := u }) ∧
    (∀ w rest, s.resp = w :: rest → ∃ u, s.hostReadResp = (some w, { s with resp := rest, unread := u })) ∧
    (∀ c rest, s.dout = c :: rest → ∃ u, s.hostReadDout = (some c, { s with dout := rest, unread := u })) ∧
    (s.resp = [] → s.hostReadResp = (none, s)) ∧ (s.dout = [] → s.hostReadDout = (none, s)) ∧
    (s.Inv → (s.hostSend cw len cs).Inv ∧ (s.hostSendRest len cs).Inv ∧ s.hostReadResp.2.Inv ∧ s.hostReadDout.2.Inv)

/-! ### VALIDATE and QPOLY -/

/-- 40_validator.md R100, success: the stripped string has the expected width, is binary and begins with `1`; the polynomial
registers take its value (with no bit lost) and width, RW0 carries RWIDTH, and nothing else changes. -/
def Obligations.ValidateAccepts : Prop :=
  ∀ (fam : Family) (imm8 : BitVec 8) (len ew : Nat) (s : State) (p : List Octet),
    len ≤ s.din.length → p = stripWs s.wsSet (s.din.take len) → HasWidth fam imm8 ew →
    AllBinary p → p.length = ew → p.head? = some 0x31#8 →
    val (bitsOf p) < 2 ^ 128 ∧ ew < 2 ^ 8 ∧
    exec (.validate fam imm8 len) s = .next
      { s with
        polyBits := BitVec.ofNat 128 (val (bitsOf p)), polyWidth := BitVec.ofNat 8 ew, polyValid := true,
        din := s.din.drop len, resp := s.resp ++ [BitVec.ofNat 32 (ew * 2 ^ 16)], inProgress := none }

/-- R102, R103: the failing cases, in their order of priority; each sends its status alone (RWIDTH 0) and changes no
register. -/
def Obligations.ValidateRejects : Prop :=
  ∀ (fam : Family) (imm8 : BitVec 8) (len ew : Nat) (s : State) (p : List Octet),
    len ≤ s.din.length → p = stripWs s.wsSet (s.din.take len) →
    (WidthInvalid fam imm8 → exec (.validate fam imm8 len) s = .next (s.after len [0x00000005#32] [])) ∧
    (HasWidth fam imm8 ew →
      (p = [] → exec (.validate fam imm8 len) s = .next (s.after len [0x00000001#32] [])) ∧
      (p ≠ [] → ¬ AllBinary p → exec (.validate fam imm8 len) s = .next (s.after len [0x00000002#32] [])) ∧
      (p ≠ [] → AllBinary p → p.length ≠ ew →
        exec (.validate fam imm8 len) s = .next (s.after len [0x00000003#32] [])) ∧
      (p.length = ew → AllBinary p → p.head? ≠ some 0x31#8 →
        exec (.validate fam imm8 len) s = .next (s.after len [0x00000004#32] [])))

/-- R64: IMM8 counts for the custom family alone. -/
def Obligations.ImmediateIgnoredUnlessCustom : Prop :=
  ∀ (fam : Family) (a b : BitVec 8) (len : Nat) (s : State), fam ≠ .custom → len ≤ s.din.length →
    exec (.validate fam a len) s = exec (.validate fam b len) s

/-- R101: VALIDATE of a string is VALIDATE of the string with every octet of class WS removed; ENCODE and DECODE remove
nothing, so an octet of class WS makes them end with NON_BINARY_CHARACTER. -/
def Obligations.WhitespaceRemovedByValidateOnly : Prop :=
  (∀ (fam : Family) (imm8 : BitVec 8) (len : Nat) (s : State) (p : List Octet),
    len ≤ s.din.length → p = (s.din.take len).filter (fun c => classOf s.wsSet c != .ws) →
    exec (.validate fam imm8 len) s =
      exec (.validate fam imm8 p.length) { s with din := p ++ s.din.drop len }) ∧
  (∀ (t : Bool) (len : Nat) (s : State) (c : Octet), len ≤ s.din.length → s.polyValid = true →
    c ∈ s.din.take len → classOf s.wsSet c = .ws →
    exec (encodeWith t len) s = .next (s.after len [0x00000002#32] []) ∧
    exec (decodeWith t len) s = .next (s.after len [0x00000002#32] []))

/-- R221: VALIDATE never answers NO_POLYNOMIAL, and a VALIDATE that ends with OK makes POLY_VALID 1. -/
def Obligations.ValidateNeverNeedsPolynomial : Prop :=
  ∀ (fam : Family) (imm8 : BitVec 8) (len : Nat) (s t : State) (w : Word),
    exec (.validate fam imm8 len) s = .next t → t.resp = s.resp ++ [w] →
    statusOf w ≠ 8 ∧ (statusOf w = 0 → t.polyValid = true)

/-- R104: QPOLY with a polynomial reports its width, its two flags and its bits, and writes no register; without one it ends
with NO_POLYNOMIAL. -/
def Obligations.QpolyReports : Prop :=
  ∀ s : State,
    (s.polyValid = true →
      exec .qpoly s = .next (s.after 0
        [BitVec.ofNat 32 (s.polyWidth.toNat * 2 ^ 16 + (if s.polyBits.toNat % 2 = 1 then 2 ^ 9 else 0) +
            (if popcount s.polyBits % 2 = 0 then 2 ^ 10 else 0)),
          BitVec.ofNat 32 s.polyBits.toNat, BitVec.ofNat 32 (s.polyBits.toNat / 2 ^ 32),
          BitVec.ofNat 32 (s.polyBits.toNat / 2 ^ 64), BitVec.ofNat 32 (s.polyBits.toNat / 2 ^ 96)] [])) ∧
    (s.polyValid = false → exec .qpoly s = .next (s.after 0 [0x00000008#32] []))

/-- R105, first part: NDX says that `x` does not divide the polynomial, DXP1 that `x + 1` does. -/
def Obligations.DerivedFlagsMeanDivisibility : Prop :=
  ∀ p : BitVec 128, (ndxFlag p = true ↔ ¬ GfDivides 0b10 p.toNat) ∧ (dxp1Flag p = true ↔ GfDivides 0b11 p.toNat)

/-- 10_state.md R26: valid polynomials with equal bits have equal widths. -/
def Obligations.EqualBitsEqualWidth : Prop :=
  ∀ s u : State, s.PolyInv → u.PolyInv → s.polyValid = true → u.polyValid = true →
    s.polyBits = u.polyBits → s.polyWidth = u.polyWidth

/-- R25: a step leaves the polynomial group alone, unless it runs a VALIDATE that ends with OK, which replaces it whole; and
POLY_VALID is never cleared. -/
def Obligations.OnlySuccessfulValidateWritesPolynomial : Prop :=
  (∀ (i : Instr) (s t : State), exec i s = .next t →
    s.SamePoly t ∨
    (i.isValidate = true ∧ t.polyValid = true ∧ ∃ w, t.resp = s.resp ++ [w] ∧ statusOf w = 0 ∧
      cwBits w 16 8 = t.polyWidth.toNat)) ∧
  (∀ s t : State, step s = .next t → s.polyValid = true → t.polyValid = true)

/-! ### The bitwise engine -/

/-- 41_bitwise_engine.md R122 (b): the engines compute remainders of polynomial division. -/
def Obligations.BitwiseEngineComputesRemainder : Prop :=
  ∀ (s : List Bool) (P d : Nat), HasDegree P d → 1 ≤ d →
    IsRemainder (val s <<< d) P d (bwEnc s P d) ∧ IsRemainder (val s) P d (bwRem s P d)

/-- 00_scope.md R14: the remainder is unique. -/
def Obligations.RemainderIsUnique : Prop :=
  ∀ a P d r q : Nat, HasDegree P d → IsRemainder a P d r → IsRemainder a P d q → r = q

/-- R122 (a): after the iteration at position `d + k` every bit at that position or above is 0 (the iterations down to there are
the scan for `P << k` down to degree `d + k`, and the rest of the scan goes on from it); so at return nothing but zeros is
cut off. -/
def Obligations.ScanClearsHighBits : Prop :=
  ∀ A P d k n : Nat, HasDegree P d → A < 2 ^ (d + n) → k ≤ n →
    divideFrom (P <<< k) (d + k) (n - k) A < 2 ^ (d + k) ∧
    divideFrom P d n A = divideFrom P d k (divideFrom (P <<< k) (d + k) (n - k) A) ∧
    divideFrom P d n A &&& mask d = divideFrom P d n A

/-- R122 (c), (d), (e): encoding is division of the message with `d` zeros after it; division is linear over XOR; leading
zeros change nothing, and the all-zero message has remainder 0. -/
def Obligations.DivisionIsLinear : Prop :=
  ∀ (P d : Nat), HasDegree P d → 1 ≤ d →
    (∀ m : List Bool, bwEnc m P d = bwRem (m ++ bitsN d 0) P d) ∧
    (∀ a b : List Bool, a.length = b.length →
      bwRem (List.zipWith xor a b) P d = bwRem a P d ^^^ bwRem b P d ∧
      bwEnc (List.zipWith xor a b) P d = bwEnc a P d ^^^ bwEnc b P d) ∧
    (∀ m : List Bool, bwEnc (false :: m) P d = bwEnc m P d) ∧
    (∀ n : Nat, bwEnc (List.replicate n false) P d = 0)

/-! ### ENCODE and DECODE -/

/-- R123, R183: ENCODE.BW of a binary message completes: DOUT gets the message unchanged and then exactly `d` characters of
the remainder; RW0 is 0; nothing else changes. -/
def Obligations.EncodeBwSendsCodeword : Prop :=
  ∀ (len : Nat) (s : State) (cs : List Octet), len ≤ s.din.length → cs = s.din.take len → s.polyValid = true → 0 < len →
    AllBinary cs →
    exec (.encodeBw len) s = .next (s.after len [0x00000000#32]
      (cs ++ charsOf (bitsN s.degree (bwEnc (bitsOf cs) s.polyBits.toNat s.degree))))

/-- R163: ENCODE.TBL of a binary message completes: below degree 8 as ENCODE.BW, the cache untouched; from 8 up with the table
register, the cache then holding the active polynomial's table. -/
def Obligations.EncodeTblSendsCodeword : Prop :=
  ∀ (len : Nat) (s : State) (cs : List Octet), len ≤ s.din.length → cs = s.din.take len → s.polyValid = true → 0 < len →
    AllBinary cs →
    (s.degree < 8 → exec (.encodeTbl len) s = .next (s.after len [0x00000000#32]
      (cs ++ charsOf (bitsN s.degree (bwEnc (bitsOf cs) s.polyBits.toNat s.degree))))) ∧
    (8 ≤ s.degree → exec (.encodeTbl len) s = .next ((s.after len [0x00000000#32]
      (cs ++ charsOf (bitsN s.degree (tblReg s.polyBits.toNat s.degree s.tableInUse (bitsOf cs))))).withCache
        s.tableInUse s.polyBits s.polyWidth true))

/-- R181: the errors of ENCODE with either engine, in their order of priority; no whitespace is removed. -/
def Obligations.EncodeChecksInOrder : Prop :=
  ∀ (t : Bool) (len : Nat) (s : State) (cs : List Octet), len ≤ s.din.length → cs = s.din.take len →
    (s.polyValid = false → exec (encodeWith t len) s = .next (s.after len [0x00000008#32] [])) ∧
    (s.polyValid = true → len = 0 → exec (encodeWith t len) s = .next (s.after len [0x00000006#32] [])) ∧
    (s.polyValid = true → 0 < len → ¬ AllBinary cs →
      exec (encodeWith t len) s = .next (s.after len [0x00000002#32] [])) ∧
    (s.polyValid = true → 0 < len → AllBinary cs →
      ∃ u, exec (encodeWith t len) s = .next u ∧ u.resp = s.resp ++ [0x00000000#32])

/-- R124: DECODE.BW of a binary codeword of at least `d` characters completes with the verdict whether the remainder is zero;
nothing else changes. -/
def Obligations.DecodeBwReportsVerdict : Prop :=
  ∀ (len : Nat) (s : State) (cs : List Octet), len ≤ s.din.length → cs = s.din.take len → s.polyValid = true → 0 < len →
    AllBinary cs → s.degree ≤ len →
    exec (.decodeBw len) s = .next (s.after len
      [if bwRem (bitsOf cs) s.polyBits.toNat s.degree = 0 then 0x00000100#32 else 0x00000000#32] [])

/-- R164: DECODE.TBL of a binary codeword of at least `d` characters completes: below degree 8 as DECODE.BW; from 8 up the
table register over the message part is compared with the check bits, the cache then holding the active polynomial's table. -/
def Obligations.DecodeTblReportsVerdict : Prop :=
  ∀ (len : Nat) (s : State) (cs : List Octet), len ≤ s.din.length → cs = s.din.take len → s.polyValid = true → 0 < len →
    AllBinary cs → s.degree ≤ len →
    (s.degree < 8 → exec (.decodeTbl len) s = .next (s.after len
      [if bwRem (bitsOf cs) s.polyBits.toNat s.degree = 0 then 0x00000100#32 else 0x00000000#32] [])) ∧
    (8 ≤ s.degree → exec (.decodeTbl len) s = .next ((s.after len
      [if tblReg s.polyBits.toNat s.degree s.tableInUse (bitsOf (cs.take (len - s.degree))) =
          val (bitsOf (cs.drop (len - s.degree))) then 0x00000100#32 else 0x00000000#32] []).withCache
        s.tableInUse s.polyBits s.polyWidth true))

/-- R182: the errors of DECODE with either engine, in their order of priority; a codeword of length exactly `d` passes, and an
empty one gives EMPTY_INPUT, never TOO_SHORT. -/
def Obligations.DecodeChecksInOrder : Prop :=
  ∀ (t : Bool) (len : Nat) (s : State) (cs : List Octet), len ≤ s.din.length → cs = s.din.take len →
    (s.polyValid = false → exec (decodeWith t len) s = .next (s.after len [0x00000008#32] [])) ∧
    (s.polyValid = true → len = 0 → exec (decodeWith t len) s = .next (s.after len [0x00000006#32] [])) ∧
    (s.polyValid = true → 0 < len → ¬ AllBinary cs →
      exec (decodeWith t len) s = .next (s.after len [0x00000002#32] [])) ∧
    (s.polyValid = true → 0 < len → AllBinary cs → len < s.polyWidth.toNat - 1 →
      exec (decodeWith t len) s = .next (s.after len [0x00000007#32] [])) ∧
    (s.polyValid = true → 0 < len → AllBinary cs → s.polyWidth.toNat - 1 ≤ len →
      ∃ u v, exec (decodeWith t len) s = .next u ∧ u.resp = s.resp ++ [v] ∧ (v = 0x00000000#32 ∨ v = 0x00000100#32))

/-- 70_reset_and_hazards.md R233: until a VALIDATE has ended with OK, every other command ends with NO_POLYNOMIAL and changes
nothing but its channels. -/
def Obligations.NothingComputesBeforeValidate : Prop :=
  ∀ (i : Instr) (s : State), s.polyValid = false → i.isValidate = false → i.dataLen ≤ s.din.length →
    exec i s = .next (s.after i.dataLen [0x00000008#32] [])

/-! ### The table and its cache -/

/-- 42_table_generator.md R141: the facts about table entries, and that a stored entry keeps all of its value. -/
def Obligations.TableEntryFacts : Prop :=
  ∀ (P W i j : Nat), 8 ≤ W - 1 → W - 1 ≤ 127 → HasDegree P (W - 1) → i < 256 → j < 256 →
    tableEntry P W i = bwEnc (bitsN 8 i) P (W - 1) ∧
    IsRemainder (i <<< (W - 1)) P (W - 1) (tableEntry P W i) ∧
    tableEntry P W 0 = 0 ∧
    tableEntry P W 1 = P &&& mask (W - 1) ∧
    tableEntry P W (i ^^^ j) = tableEntry P W i ^^^ tableEntry P W j ∧
    tableEntry P W i < 2 ^ (W - 1) ∧
    (entry (buildTable P W) (BitVec.ofNat 8 i)).toNat = tableEntry P W i

/-- R147: whenever GetTable returns a table, its entries are those of the active polynomial. -/
def Obligations.TableIsTransparent : Prop :=
  ∀ (s u : State) (t : Table), s.Inv → s.polyValid = true → getTable s = (some t, u) →
    ∀ i : BitVec 8, (entry t i).toNat = tableEntry s.polyBits.toNat s.polyWidth.toNat i.toNat

/-- R145: TREAD of a polynomial of degree 8 or more completes: RW0 is 0, then the entry as four words, least significant first;
the cache then holds the active polynomial's table; nothing else changes. -/
def Obligations.TreadSendsEntry : Prop :=
  ∀ (index : BitVec 8) (s : State), s.polyValid = true → 8 ≤ s.degree →
    exec (.tread index) s = .next ((s.after 0
      [0x00000000#32, BitVec.ofNat 32 (entry s.tableInUse index).toNat,
        BitVec.ofNat 32 ((entry s.tableInUse index).toNat / 2 ^ 32),
        BitVec.ofNat 32 ((entry s.tableInUse index).toNat / 2 ^ 64),
        BitVec.ofNat 32 ((entry s.tableInUse index).toNat / 2 ^ 96)] []).withCache
      s.tableInUse s.polyBits s.polyWidth true)

/-- R145, R220: the errors of TREAD, in their order of priority; neither changes any state. -/
def Obligations.TreadErrorsInOrder : Prop :=
  ∀ (index : BitVec 8) (s : State),
    (s.polyValid = false → exec (.tread index) s = .next (s.after 0 [0x00000008#32] [])) ∧
    (s.polyValid = true → s.degree < 8 → exec (.tread index) s = .next (s.after 0 [0x00000009#32] []))

/-- R143, R148: a command leaves the cache as it was, unless it is an ENCODE.TBL, DECODE.TBL or TREAD of a polynomial of degree
8 or more that ends with OK and finds another key: that one writes all 256 entries and the key of the active polynomial. -/
def Obligations.OnlyBuildsWriteCache : Prop :=
  ∀ (i : Instr) (s t : State), exec i s = .next t →
    s.SameCache t ∨
    (i.usesTable = true ∧ s.polyValid = true ∧ 8 ≤ s.degree ∧ ¬ s.CacheHit ∧
      (∃ w ws, t.resp = s.resp ++ w :: ws ∧ statusOf w = 0) ∧
      (∀ k : BitVec 8, entry t.tbl k =
        BitVec.ofNat 127 (tableEntry s.polyBits.toNat s.polyWidth.toNat k.toNat)) ∧
      t.tblKeyBits = s.polyBits ∧ t.tblKeyWidth = s.polyWidth ∧ t.tblValid = true)

/-- R146: two TREADs of the same index with the same active polynomial return the same words, whatever the cache held. -/
def Obligations.TreadIsIdempotent : Prop :=
  ∀ (index : BitVec 8) (s u : State), s.Inv → u.Inv → s.SamePoly u →
    ∃ (s' u' : State) (ws : List Word), exec (.tread index) s = .next s' ∧ exec (.tread index) u = .next u' ∧
      s'.resp = s.resp ++ ws ∧ u'.resp = u.resp ++ ws

/-- 70_reset_and_hazards.md R232: while TBL_VALID is 0 the contents of TBL make no difference to anything a command does, and
TBL_VALID becomes 1 only by a full build. -/
def Obligations.InvalidTableIsUnobservable : Prop :=
  ∀ (i : Instr) (s : State) (t0 : Table), s.tblValid = false →
    ∃ a b, exec i s = .next a ∧ exec i { s with tbl := t0 } = .next b ∧
      (a.tblValid = true → b = a ∧ ∀ k : BitVec 8, entry a.tbl k =
        BitVec.ofNat 127 (tableEntry s.polyBits.toNat s.polyWidth.toNat k.toNat)) ∧
      (a.tblValid = false → b = { a with tbl := t0 })

/-! ### The table-driven engine against the bitwise engine -/

/-- 43_table_engine.md R165 (a): the single-bit step is multiplication by `x` with the message bit entering at `x^d`. -/
def Obligations.BitStepIsRemainder : Prop :=
  ∀ (P d r : Nat) (b : Bool), HasDegree P d → 1 ≤ d → r < 2 ^ d →
    IsRemainder ((r <<< 1) ^^^ (b.toNat <<< d)) P d (step1 P d r b)

/-- R165 (b): eight bit steps fed the bits of a byte equal the byte step. -/
def Obligations.ByteStepIsEightBitSteps : Prop :=
  ∀ (P d r byte : Nat), HasDegree P d → 8 ≤ d → d ≤ 127 → r < 2 ^ d → byte < 256 →
    (bitsN 8 byte).foldl (step1 P d) r = stepB d (buildTable P (d + 1)) r byte

/-- R165 (c): the table register is the bitwise engine's remainder, for every bit string, and 0 for the empty one. -/
def Obligations.TableRegisterEqualsBitwise : Prop :=
  ∀ (P d : Nat) (s : List Bool), HasDegree P d → 8 ≤ d → d ≤ 127 →
    tblReg P d (buildTable P (d + 1)) s = bwEnc s P d ∧
    IsRemainder (val s <<< d) P d (tblReg P d (buildTable P (d + 1)) s) ∧
    tblReg P d (buildTable P (d + 1)) [] = 0

/-- 44_codec.md R186: for every polynomial and every input, rejected inputs too, the two engines give the same response words
and the same DOUT characters, and leave the same state but for the cache. -/
def Obligations.EnginesAreEquivalent : Prop :=
  ∀ (len : Nat) (s : State), s.Inv → len ≤ s.din.length →
    (∃ t u, exec (.encodeBw len) s = .next t ∧ exec (.encodeTbl len) s = .next u ∧
      t.resp = u.resp ∧ t.dout = u.dout ∧ t.SameButCache u) ∧
    (∃ t u, exec (.decodeBw len) s = .next t ∧ exec (.decodeTbl len) s = .next u ∧
      t.resp = u.resp ∧ t.dout = u.dout ∧ t.SameButCache u)

/-- R166: testing the whole codeword's register for zero, as the source's text has it, gives the remainder's verdict when the
polynomial has constant term 1, and can differ when it has not. -/
def Obligations.LiteralTableDecode : Prop :=
  (∀ (P d : Nat) (c : List Bool), HasDegree P d → 8 ≤ d → d ≤ 127 → P.testBit 0 = true →
    (tblReg P d (buildTable P (d + 1)) c = 0 ↔ bwRem c P d = 0)) ∧
  (bwRem (bitsN 9 0b100000001) 0b100000000 8 = 1 ∧
    tblReg 0b100000000 8 (buildTable 0b100000000 9) (bitsN 9 0b100000001) = 0)

/-! ### Properties of the codec -/

/-- R188: what an ENCODE with either engine sends, a DECODE with either engine of the same polynomial finds valid. -/
def Obligations.RoundTripIsValid : Prop :=
  ∀ (te td : Bool) (len : Nat) (s t u : State) (cw rest : List Octet), s.Inv → u.Inv → s.SamePoly u →
    len ≤ s.din.length → exec (encodeWith te len) s = .next t → t.resp = s.resp ++ [0x00000000#32] →
    t.dout = s.dout ++ cw → u.din = cw ++ rest →
    ∃ v, exec (decodeWith td cw.length) u = .next v ∧ v.resp = u.resp ++ [0x00000100#32]

/-- R189 (a): with constant term 1, flipping exactly one character of a valid codeword gives VERDICT 0. -/
def Obligations.SingleFlipIsDetected : Prop :=
  ∀ (td te : Bool) (len : Nat) (s t : State) (e : List Bool), s.Inv → len ≤ s.din.length →
    s.polyBits.getLsbD 0 = true → exec (decodeWith td len) s = .next t → t.resp = s.resp ++ [0x00000100#32] →
    e.length = len → e.count true = 1 →
    ∃ u, exec (decodeWith te len) { s with din := flipChars e (s.din.take len) ++ s.din.drop len } = .next u ∧
      u.resp = s.resp ++ [0x00000000#32]

/-- R189 (b): with an even number of terms, flipping any odd number of characters of a valid codeword gives VERDICT 0. -/
def Obligations.OddFlipsAreDetected : Prop :=
  ∀ (td te : Bool) (len : Nat) (s t : State) (e : List Bool), s.Inv → len ≤ s.din.length →
    popcount s.polyBits % 2 = 0 → exec (decodeWith td len) s = .next t → t.resp = s.resp ++ [0x00000100#32] →
    e.length = len → e.count true % 2 = 1 →
    ∃ u, exec (decodeWith te len) { s with din := flipChars e (s.din.take len) ++ s.din.drop len } = .next u ∧
      u.resp = s.resp ++ [0x00000000#32]

/-- R185: what an ENCODE sends is a function of the polynomial group and its characters alone, and so is what a DECODE sends;
neither the T bit nor the cache counts. The only state either may write is the cache, and only with T = 1 and degree 8 or
more. -/
def Obligations.CodecIsReferentiallyTransparent : Prop :=
  ∀ (op : Bool → Nat → Instr), op = encodeWith ∨ op = decodeWith →
  ∀ (ts tu : Bool) (len : Nat) (s u : State), s.Inv → u.Inv → s.SamePoly u → len ≤ s.din.length → len ≤ u.din.length →
    s.din.take len = u.din.take len →
    ∃ (s' u' : State) (ws : List Word) (cs : List Octet),
      exec (op ts len) s = .next s' ∧ exec (op tu len) u = .next u' ∧
      s'.resp = s.resp ++ ws ∧ u'.resp = u.resp ++ ws ∧ s'.dout = s.dout ++ cs ∧ u'.dout = u.dout ++ cs ∧
      (s.after len ws cs).SameButCache s' ∧
      (ts = false ∨ s.degree < 8 → s' = s.after len ws cs)

/-- 10_state.md R31: the table cache is hidden. From two states that differ in the cache alone, every command sends the same
items and leaves states that differ in the cache alone. -/
def Obligations.CacheIsUnobservable : Prop :=
  ∀ (i : Instr) (s u : State), s.Inv → u.Inv → s.SameButCache u →
    ∃ s' u', exec i s = .next s' ∧ exec i u = .next u' ∧ s'.SameButCache u'

/-! ### Framing, responses, frames -/

/-- 20_memory.md R44: a command removes exactly its LEN octets from DIN, before any response (until all have come there is
none); TREAD and QPOLY remove nothing. That DIN is as before while characters are missing is the model's choice (log entry 6:
R41 has RecvSym remove each octet as it comes). -/
def Obligations.InputFraming : Prop :=
  (∀ (i : Instr) (s t : State), exec i s = .next t →
    (i.dataLen ≤ s.din.length → t.din = s.din.drop i.dataLen ∧ t.resp ≠ s.resp) ∧
    (s.din.length < i.dataLen → t.din = s.din ∧ t.resp = s.resp ∧ t.dout = s.dout)) ∧
  (∀ (ws rest : List Word) (i : Instr), decode ws = .command i rest →
    i.dataLen = if commandWords (ws.headD 0#32) = 2 then (ws.getD 1 0#32).toNat else 0) ∧
  (∀ (s t : State) (cw : Word) (rest : List Word), s.inProgress = none → s.cmd = cw :: rest → IllegalWord cw →
    step s = .next t → t.din = s.din ∧ t.cmd = rest)

/-- R45: exactly one RW0; four payload words after it for TREAD and QPOLY on success only; `LEN + d` characters for ENCODE on
success only; nothing else, and after an error nothing but RW0. -/
def Obligations.OutputFraming : Prop :=
  (∀ (i : Instr) (s t : State), i.dataLen ≤ s.din.length → exec i s = .next t →
    ∃ (w : Word) (ws : List Word) (cs : List Octet), t.resp = s.resp ++ w :: ws ∧ t.dout = s.dout ++ cs ∧
      ws.length = (if statusOf w = 0 ∧ i.sendsPayload = true then 4 else 0) ∧
      cs.length = (if statusOf w = 0 ∧ i.isEncode = true then i.dataLen + s.degree else 0)) ∧
  (∀ (s t : State) (cw : Word) (rest : List Word), s.inProgress = none → s.cmd = cw :: rest → IllegalWord cw →
    step s = .next t → t.resp = s.resp ++ [0x0000000A#32] ∧ t.dout = s.dout)

/-- 60_exceptions.md R202: a step that ends a command with a status other than OK leaves every register and the cache as they
were, has removed the command's words and characters and nothing more, sends RW0 with the status and every other bit 0, and
leaves the core ready. -/
def Obligations.ErrorCompletion : Prop :=
  (∀ (s t : State) (i : Instr) (rest ws : List Word) (w : Word), s.inProgress = none →
    decode s.cmd = .command i rest → i.dataLen ≤ s.din.length → step s = .next t →
    t.resp = s.resp ++ w :: ws → statusOf w ≠ 0 →
    w.toNat = statusOf w ∧
    t = { s with
      cmd := rest, din := s.din.drop i.dataLen, resp := s.resp ++ [w] }) ∧
  (∀ (s t : State) (cw : Word) (rest : List Word), s.inProgress = none →
    s.cmd = cw :: rest → IllegalWord cw → step s = .next t →
    t = { s with cmd := rest, resp := s.resp ++ [0x0000000A#32] })

/-- 44_codec.md R187: the same of a codec command alone, from every state: no register written, nothing on DOUT, RW0 alone,
the characters consumed. -/
def Obligations.CodecErrorAtomicity : Prop :=
  ∀ (i : Instr) (s t : State) (w : Word) (ws : List Word), i.isEncode = true ∨ i.isDecode = true →
    i.dataLen ≤ s.din.length → exec i s = .next t → t.resp = s.resp ++ w :: ws → statusOf w ≠ 0 →
    t = s.after i.dataLen [w] []

/-- 30_encoding.md R70: the fields of RW0 and who may set them. -/
def Obligations.ResponseWordFields : Prop :=
  ∀ (i : Instr) (s t : State) (w : Word) (ws : List Word), i.dataLen ≤ s.din.length → exec i s = .next t →
    t.resp = s.resp ++ w :: ws →
    statusOf w ≤ 9 ∧ cwBits w 11 5 = 0 ∧ cwBits w 24 8 = 0 ∧
    (cwBits w 8 1 = 1 → i.isDecode = true ∧ statusOf w = 0) ∧
    cwBits w 9 1 = (if i = .qpoly ∧ statusOf w = 0 then s.polyBits.toNat % 2 else 0) ∧
    cwBits w 10 1 = (if i = .qpoly ∧ statusOf w = 0 ∧ popcount s.polyBits % 2 = 0 then 1 else 0) ∧
    cwBits w 16 8 = (if (i.isValidate = true ∨ i = .qpoly) ∧ statusOf w = 0 then t.polyWidth.toNat else 0)

/-- 20_memory.md R46: a 128-bit payload is its four words, least significant first. -/
def Obligations.PayloadLeastSignificantFirst : Prop :=
  ∀ v : BitVec 128, ∃ a b c d : Word, payload v = [a, b, c, d] ∧
    v.toNat = a.toNat + b.toNat * 2 ^ 32 + c.toNat * 2 ^ 64 + d.toNat * 2 ^ 96

/-- The frame of all seven commands. No command touches CMD, WS_SET or what is noted of the host; only VALIDATE writes the polynomial
group; only ENCODE.TBL, DECODE.TBL and TREAD write the cache; only ENCODE sends on DOUT; RESP and DOUT are only ever added to;
DIN only ever loses its oldest octets. -/
def Obligations.CommandFrames : Prop :=
  ∀ (i : Instr) (s t : State), exec i s = .next t →
    t.cmd = s.cmd ∧ t.wsSet = s.wsSet ∧ t.host = s.host ∧ t.unread = s.unread ∧
    (i.isValidate = false → s.SamePoly t) ∧
    (i.usesTable = false → s.SameCache t) ∧
    (i.isEncode = false → t.dout = s.dout) ∧
    (∃ ws, t.resp = s.resp ++ ws) ∧ (∃ cs, t.dout = s.dout ++ cs) ∧
    (i.dataLen = 0 → t.din = s.din) ∧ (∃ n, n ≤ i.dataLen ∧ t.din = s.din.drop n)

/-! ### The host's duties -/

/-- R240 (a), (b), (c), by the host's own acts. A CW sent by a host that has read the whole response breaks no duty: all it expects by
its own framing, RW0, then payload words, and `LEN + d` characters for an ENCODE with OK; or, where it has broken (b) and the core
has decoded other commands, RW0 and all that those have sent. One sent before leaves the core no step from that moment, and the
host's reading late or sending more does not give it one; the same from the moment it stops draining. A reset ends both: the host's
duties count anew and the core waits. The model's choices: how the state tells such a host (log entry 4), when it has read the whole
response (15), that the duties count anew (10), and that the wait after reset answers the same state (7). -/
def Obligations.BrokenDutyLeavesNoStep : Prop :=
  (∀ (s : State) (cw : Word) (len : Option Word) (cs : List Octet), s.host = .keepsDuties →
    (s.ReadWhole → (s.hostSend cw len cs).host = .keepsDuties) ∧
    (¬ s.ReadWhole → step (s.hostSend cw len cs) = .fault .stuckResponseUnread)) ∧
  (∀ (s : State) (cw : Word) (len : Option Word) (cs : List Octet), (s.hostSend cw len cs).unread = .response cw len 0) ∧
  (∀ (s : State) (cw w : Word) (len : Option Word) (got : Nat) (rest : List Word),
    s.unread = .response cw len got → s.resp = w :: rest →
    s.hostReadResp.2.unread = .items
      (if statusOf w = 0 ∧ (cwBits cw 0 8 = 4 ∨ cwBits cw 0 8 = 5) then 4 else 0)
      ((if statusOf w = 0 ∧ cwBits cw 0 8 = 2 then (len.getD 0#32).toNat + s.degree else 0) - got)) ∧
  (∀ (s : State) (n m : Nat), s.unread = .items n m →
    (s.resp ≠ [] → s.hostReadResp.2.unread = .items (n - 1) m) ∧
    (s.dout ≠ [] → s.hostReadDout.2.unread = .items n (m - 1))) ∧
  (∀ (s : State) (cw : Word) (len : Option Word) (got : Nat), s.unread = .response cw len got → s.dout ≠ [] →
    s.hostReadDout.2.unread = .response cw len (got + 1)) ∧
  (∀ s : State, s.host = .keepsDuties → step s.hostStopsDraining = .fault .stuckNotDrained) ∧
  (∀ (s : State) (why : Fault) (cw : Word) (len : Option Word) (cs : List Octet), step s = .fault why →
    step s.hostReadResp.2 = .fault why ∧ step s.hostReadDout.2 = .fault why ∧ step (s.hostSend cw len cs) = .fault why ∧
    step (s.hostSendRest len cs) = .fault why ∧ step s.hostStopsDraining = .fault why) ∧
  (∀ s : State, step s.hostReset = .next s.hostReset)
end

