-- ==== Sys2Proof/Laws/Bits.lean ====
section
/-! SUPPORT. Bit strings, their values, characters and the table's entries: the small lemmas of Machine/Operands.lean. -/

namespace Sys2Proof.Machine

/-! ### mask -/

theorem and_mask (a d : Nat) : a &&& mask d = a % 2 ^ d := Nat.and_two_pow_sub_one_eq_mod a d

theorem and_mask_lt (a d : Nat) : a &&& mask d < 2 ^ d := by
  rw [and_mask]; exact Nat.mod_lt _ (Nat.two_pow_pos d)

theorem and_mask_of_lt {a d : Nat} (h : a < 2 ^ d) : a &&& mask d = a := by
  rw [and_mask]; exact Nat.mod_eq_of_lt h

@[simp] theorem testBit_mask (d j : Nat) : (mask d).testBit j = decide (j < d) := by
  simp [mask, Nat.testBit_two_pow_sub_one]

/-! ### val -/

theorem foldl_val (s : List Bool) (v : Nat) :
    s.foldl (fun v b => 2 * v + b.toNat) v = v * 2 ^ s.length + val s := by
  induction s generalizing v with
  | nil => simp [val]
  | cons b s ih =>
    have e : val (b :: s) = b.toNat * 2 ^ s.length + val s := by
      simp only [val, List.foldl_cons]; rw [ih]; simp [val]
    rw [List.foldl_cons, ih, e, List.length_cons]
    ring

@[simp] theorem val_nil : val [] = 0 := rfl

theorem val_append (s t : List Bool) : val (s ++ t) = val s * 2 ^ t.length + val t := by
  rw [val, List.foldl_append, foldl_val]; rfl

theorem val_cons (b : Bool) (s : List Bool) : val (b :: s) = b.toNat * 2 ^ s.length + val s := by
  rw [← List.singleton_append, val_append]; simp [val]

theorem val_lt (s : List Bool) : val s < 2 ^ s.length := by
  induction s with
  | nil => simp
  | cons b s ih =>
    rw [val_cons, List.length_cons, pow_succ]
    have : b.toNat ≤ 1 := Bool.toNat_le b
    nlinarith [Nat.two_pow_pos s.length]

/-! ### bits_n -/

@[simp] theorem bitsN_length (n v : Nat) : (bitsN n v).length = n := by
  induction n with
  | zero => rfl
  | succ n ih => simp [bitsN, ih]

theorem val_bitsN (n v : Nat) : val (bitsN n v) = v % 2 ^ n := by
  induction n with
  | zero => simp [bitsN, Nat.mod_one]
  | succ n ih =>
    rw [bitsN, val_cons, ih, bitsN_length, Nat.mod_pow_succ, Nat.testBit_eq_decide_div_mod_eq]
    rcases Nat.mod_two_eq_zero_or_one (v / 2 ^ n) with h | h <;> simp [h, Nat.add_comm]

theorem val_bitsN_of_lt {n v : Nat} (h : v < 2 ^ n) : val (bitsN n v) = v := by
  rw [val_bitsN, Nat.mod_eq_of_lt h]

/-! ### Characters -/

@[simp] theorem bitsOf_length (cs : List Octet) : (bitsOf cs).length = cs.length := by simp [bitsOf]

@[simp] theorem charsOf_length (s : List Bool) : (charsOf s).length = s.length := by simp [charsOf]

@[simp] theorem bitsOf_charsOf (s : List Bool) : bitsOf (charsOf s) = s := by
  induction s with
  | nil => rfl
  | cons b s ih => cases b <;> simpa [bitsOf, charsOf, Config.charOne, Config.charZero] using ih

theorem isBinary_iff (c : Octet) : isBinary c = true ↔ c = 0x30#8 ∨ c = 0x31#8 := by
  simp [isBinary, Config.charZero, Config.charOne]

/-- A binary string is the characters of its bits (R16). -/
theorem charsOf_bitsOf {cs : List Octet} (h : ∀ c ∈ cs, c = 0x30#8 ∨ c = 0x31#8) : charsOf (bitsOf cs) = cs := by
  induction cs with
  | nil => rfl
  | cons c cs ih =>
    have hc := h c (by simp)
    have ht := ih (fun x hx => h x (by simp [hx]))
    rcases hc with rfl | rfl <;> simpa [bitsOf, charsOf, Config.charOne, Config.charZero] using ht

theorem isBinary_charsOf (s : List Bool) : ∀ c ∈ charsOf s, c = 0x30#8 ∨ c = 0x31#8 := by
  intro c hc
  simp only [charsOf, List.mem_map] at hc
  obtain ⟨b, -, rfl⟩ := hc
  cases b <;> simp [Config.charOne, Config.charZero]

@[simp] theorem charsOf_append (s t : List Bool) : charsOf (s ++ t) = charsOf s ++ charsOf t := by simp [charsOf]

@[simp] theorem bitsOf_append (s t : List Octet) : bitsOf (s ++ t) = bitsOf s ++ bitsOf t := by simp [bitsOf]

end Sys2Proof.Machine
end

