-- ==== Sys2Proof/Laws/State.lean ====
section
/-! SUPPORT. What each named update does to each field of State, and to the degree and value of the active polynomial. -/

namespace Sys2Proof.Machine

/-! ### setPoly -/

@[simp] theorem State.setPoly_polyBits (s : State) (bits : BitVec 128) (width : BitVec 8) : (s.setPoly bits width).polyBits = bits := rfl
@[simp] theorem State.setPoly_polyWidth (s : State) (bits : BitVec 128) (width : BitVec 8) : (s.setPoly bits width).polyWidth = width := rfl
@[simp] theorem State.setPoly_polyValid (s : State) (bits : BitVec 128) (width : BitVec 8) : (s.setPoly bits width).polyValid = true := rfl
@[simp] theorem State.setPoly_tbl (s : State) (bits : BitVec 128) (width : BitVec 8) : (s.setPoly bits width).tbl = s.tbl := rfl
@[simp] theorem State.setPoly_tblKeyBits (s : State) (bits : BitVec 128) (width : BitVec 8) : (s.setPoly bits width).tblKeyBits = s.tblKeyBits := rfl
@[simp] theorem State.setPoly_tblKeyWidth (s : State) (bits : BitVec 128) (width : BitVec 8) : (s.setPoly bits width).tblKeyWidth = s.tblKeyWidth := rfl
@[simp] theorem State.setPoly_tblValid (s : State) (bits : BitVec 128) (width : BitVec 8) : (s.setPoly bits width).tblValid = s.tblValid := rfl
@[simp] theorem State.setPoly_cmd (s : State) (bits : BitVec 128) (width : BitVec 8) : (s.setPoly bits width).cmd = s.cmd := rfl
@[simp] theorem State.setPoly_din (s : State) (bits : BitVec 128) (width : BitVec 8) : (s.setPoly bits width).din = s.din := rfl
@[simp] theorem State.setPoly_resp (s : State) (bits : BitVec 128) (width : BitVec 8) : (s.setPoly bits width).resp = s.resp := rfl
@[simp] theorem State.setPoly_dout (s : State) (bits : BitVec 128) (width : BitVec 8) : (s.setPoly bits width).dout = s.dout := rfl
@[simp] theorem State.setPoly_inProgress (s : State) (bits : BitVec 128) (width : BitVec 8) : (s.setPoly bits width).inProgress = s.inProgress := rfl
@[simp] theorem State.setPoly_wsSet (s : State) (bits : BitVec 128) (width : BitVec 8) : (s.setPoly bits width).wsSet = s.wsSet := rfl
@[simp] theorem State.setPoly_host (s : State) (bits : BitVec 128) (width : BitVec 8) : (s.setPoly bits width).host = s.host := rfl
@[simp] theorem State.setPoly_unread (s : State) (bits : BitVec 128) (width : BitVec 8) : (s.setPoly bits width).unread = s.unread := rfl

/-! ### setTable -/

@[simp] theorem State.setTable_polyBits (s : State) (t : Table) (bits : BitVec 128) (width : BitVec 8) : (s.setTable t bits width).polyBits = s.polyBits := rfl
@[simp] theorem State.setTable_polyWidth (s : State) (t : Table) (bits : BitVec 128) (width : BitVec 8) : (s.setTable t bits width).polyWidth = s.polyWidth := rfl
@[simp] theorem State.setTable_polyValid (s : State) (t : Table) (bits : BitVec 128) (width : BitVec 8) : (s.setTable t bits width).polyValid = s.polyValid := rfl
@[simp] theorem State.setTable_tbl (s : State) (t : Table) (bits : BitVec 128) (width : BitVec 8) : (s.setTable t bits width).tbl = t := rfl
@[simp] theorem State.setTable_tblKeyBits (s : State) (t : Table) (bits : BitVec 128) (width : BitVec 8) : (s.setTable t bits width).tblKeyBits = bits := rfl
@[simp] theorem State.setTable_tblKeyWidth (s : State) (t : Table) (bits : BitVec 128) (width : BitVec 8) : (s.setTable t bits width).tblKeyWidth = width := rfl
@[simp] theorem State.setTable_tblValid (s : State) (t : Table) (bits : BitVec 128) (width : BitVec 8) : (s.setTable t bits width).tblValid = true := rfl
@[simp] theorem State.setTable_cmd (s : State) (t : Table) (bits : BitVec 128) (width : BitVec 8) : (s.setTable t bits width).cmd = s.cmd := rfl
@[simp] theorem State.setTable_din (s : State) (t : Table) (bits : BitVec 128) (width : BitVec 8) : (s.setTable t bits width).din = s.din := rfl
@[simp] theorem State.setTable_resp (s : State) (t : Table) (bits : BitVec 128) (width : BitVec 8) : (s.setTable t bits width).resp = s.resp := rfl
@[simp] theorem State.setTable_dout (s : State) (t : Table) (bits : BitVec 128) (width : BitVec 8) : (s.setTable t bits width).dout = s.dout := rfl
@[simp] theorem State.setTable_inProgress (s : State) (t : Table) (bits : BitVec 128) (width : BitVec 8) : (s.setTable t bits width).inProgress = s.inProgress := rfl
@[simp] theorem State.setTable_wsSet (s : State) (t : Table) (bits : BitVec 128) (width : BitVec 8) : (s.setTable t bits width).wsSet = s.wsSet := rfl
@[simp] theorem State.setTable_host (s : State) (t : Table) (bits : BitVec 128) (width : BitVec 8) : (s.setTable t bits width).host = s.host := rfl
@[simp] theorem State.setTable_unread (s : State) (t : Table) (bits : BitVec 128) (width : BitVec 8) : (s.setTable t bits width).unread = s.unread := rfl
@[simp] theorem State.setTable_poly (s : State) (t : Table) (bits : BitVec 128) (width : BitVec 8) : (s.setTable t bits width).poly = s.poly := rfl
@[simp] theorem State.setTable_degree (s : State) (t : Table) (bits : BitVec 128) (width : BitVec 8) : (s.setTable t bits width).degree = s.degree := rfl

/-! ### setCmd -/

@[simp] theorem State.setCmd_polyBits (s : State) (ws : List Word) : (s.setCmd ws).polyBits = s.polyBits := rfl
@[simp] theorem State.setCmd_polyWidth (s : State) (ws : List Word) : (s.setCmd ws).polyWidth = s.polyWidth := rfl
@[simp] theorem State.setCmd_polyValid (s : State) (ws : List Word) : (s.setCmd ws).polyValid = s.polyValid := rfl
@[simp] theorem State.setCmd_tbl (s : State) (ws : List Word) : (s.setCmd ws).tbl = s.tbl := rfl
@[simp] theorem State.setCmd_tblKeyBits (s : State) (ws : List Word) : (s.setCmd ws).tblKeyBits = s.tblKeyBits := rfl
@[simp] theorem State.setCmd_tblKeyWidth (s : State) (ws : List Word) : (s.setCmd ws).tblKeyWidth = s.tblKeyWidth := rfl
@[simp] theorem State.setCmd_tblValid (s : State) (ws : List Word) : (s.setCmd ws).tblValid = s.tblValid := rfl
@[simp] theorem State.setCmd_cmd (s : State) (ws : List Word) : (s.setCmd ws).cmd = ws := rfl
@[simp] theorem State.setCmd_din (s : State) (ws : List Word) : (s.setCmd ws).din = s.din := rfl
@[simp] theorem State.setCmd_resp (s : State) (ws : List Word) : (s.setCmd ws).resp = s.resp := rfl
@[simp] theorem State.setCmd_dout (s : State) (ws : List Word) : (s.setCmd ws).dout = s.dout := rfl
@[simp] theorem State.setCmd_inProgress (s : State) (ws : List Word) : (s.setCmd ws).inProgress = s.inProgress := rfl
@[simp] theorem State.setCmd_wsSet (s : State) (ws : List Word) : (s.setCmd ws).wsSet = s.wsSet := rfl
@[simp] theorem State.setCmd_host (s : State) (ws : List Word) : (s.setCmd ws).host = s.host := rfl
@[simp] theorem State.setCmd_unread (s : State) (ws : List Word) : (s.setCmd ws).unread = s.unread := rfl
@[simp] theorem State.setCmd_poly (s : State) (ws : List Word) : (s.setCmd ws).poly = s.poly := rfl
@[simp] theorem State.setCmd_degree (s : State) (ws : List Word) : (s.setCmd ws).degree = s.degree := rfl

/-! ### takeInput -/

@[simp] theorem State.takeInput_polyBits (s : State) (n : Nat) : (s.takeInput n).polyBits = s.polyBits := rfl
@[simp] theorem State.takeInput_polyWidth (s : State) (n : Nat) : (s.takeInput n).polyWidth = s.polyWidth := rfl
@[simp] theorem State.takeInput_polyValid (s : State) (n : Nat) : (s.takeInput n).polyValid = s.polyValid := rfl
@[simp] theorem State.takeInput_tbl (s : State) (n : Nat) : (s.takeInput n).tbl = s.tbl := rfl
@[simp] theorem State.takeInput_tblKeyBits (s : State) (n : Nat) : (s.takeInput n).tblKeyBits = s.tblKeyBits := rfl
@[simp] theorem State.takeInput_tblKeyWidth (s : State) (n : Nat) : (s.takeInput n).tblKeyWidth = s.tblKeyWidth := rfl
@[simp] theorem State.takeInput_tblValid (s : State) (n : Nat) : (s.takeInput n).tblValid = s.tblValid := rfl
@[simp] theorem State.takeInput_cmd (s : State) (n : Nat) : (s.takeInput n).cmd = s.cmd := rfl
@[simp] theorem State.takeInput_din (s : State) (n : Nat) : (s.takeInput n).din = s.din.drop n := rfl
@[simp] theorem State.takeInput_resp (s : State) (n : Nat) : (s.takeInput n).resp = s.resp := rfl
@[simp] theorem State.takeInput_dout (s : State) (n : Nat) : (s.takeInput n).dout = s.dout := rfl
@[simp] theorem State.takeInput_inProgress (s : State) (n : Nat) : (s.takeInput n).inProgress = s.inProgress := rfl
@[simp] theorem State.takeInput_wsSet (s : State) (n : Nat) : (s.takeInput n).wsSet = s.wsSet := rfl
@[simp] theorem State.takeInput_host (s : State) (n : Nat) : (s.takeInput n).host = s.host := rfl
@[simp] theorem State.takeInput_unread (s : State) (n : Nat) : (s.takeInput n).unread = s.unread := rfl
@[simp] theorem State.takeInput_poly (s : State) (n : Nat) : (s.takeInput n).poly = s.poly := rfl
@[simp] theorem State.takeInput_degree (s : State) (n : Nat) : (s.takeInput n).degree = s.degree := rfl

/-! ### hold -/

@[simp] theorem State.hold_polyBits (s : State) (i : Instr) : (s.hold i).polyBits = s.polyBits := rfl
@[simp] theorem State.hold_polyWidth (s : State) (i : Instr) : (s.hold i).polyWidth = s.polyWidth := rfl
@[simp] theorem State.hold_polyValid (s : State) (i : Instr) : (s.hold i).polyValid = s.polyValid := rfl
@[simp] theorem State.hold_tbl (s : State) (i : Instr) : (s.hold i).tbl = s.tbl := rfl
@[simp] theorem State.hold_tblKeyBits (s : State) (i : Instr) : (s.hold i).tblKeyBits = s.tblKeyBits := rfl
@[simp] theorem State.hold_tblKeyWidth (s : State) (i : Instr) : (s.hold i).tblKeyWidth = s.tblKeyWidth := rfl
@[simp] theorem State.hold_tblValid (s : State) (i : Instr) : (s.hold i).tblValid = s.tblValid := rfl
@[simp] theorem State.hold_cmd (s : State) (i : Instr) : (s.hold i).cmd = s.cmd := rfl
@[simp] theorem State.hold_din (s : State) (i : Instr) : (s.hold i).din = s.din := rfl
@[simp] theorem State.hold_resp (s : State) (i : Instr) : (s.hold i).resp = s.resp := rfl
@[simp] theorem State.hold_dout (s : State) (i : Instr) : (s.hold i).dout = s.dout := rfl
@[simp] theorem State.hold_inProgress (s : State) (i : Instr) : (s.hold i).inProgress = some i := rfl
@[simp] theorem State.hold_wsSet (s : State) (i : Instr) : (s.hold i).wsSet = s.wsSet := rfl
@[simp] theorem State.hold_host (s : State) (i : Instr) : (s.hold i).host = s.host := rfl
@[simp] theorem State.hold_unread (s : State) (i : Instr) : (s.hold i).unread = s.unread := rfl
@[simp] theorem State.hold_poly (s : State) (i : Instr) : (s.hold i).poly = s.poly := rfl
@[simp] theorem State.hold_degree (s : State) (i : Instr) : (s.hold i).degree = s.degree := rfl

/-! ### respond -/

@[simp] theorem State.respond_polyBits (s : State) (ws : List Word) (cs : List Octet) : (s.respond ws cs).polyBits = s.polyBits := rfl
@[simp] theorem State.respond_polyWidth (s : State) (ws : List Word) (cs : List Octet) : (s.respond ws cs).polyWidth = s.polyWidth := rfl
@[simp] theorem State.respond_polyValid (s : State) (ws : List Word) (cs : List Octet) : (s.respond ws cs).polyValid = s.polyValid := rfl
@[simp] theorem State.respond_tbl (s : State) (ws : List Word) (cs : List Octet) : (s.respond ws cs).tbl = s.tbl := rfl
@[simp] theorem State.respond_tblKeyBits (s : State) (ws : List Word) (cs : List Octet) : (s.respond ws cs).tblKeyBits = s.tblKeyBits := rfl
@[simp] theorem State.respond_tblKeyWidth (s : State) (ws : List Word) (cs : List Octet) : (s.respond ws cs).tblKeyWidth = s.tblKeyWidth := rfl
@[simp] theorem State.respond_tblValid (s : State) (ws : List Word) (cs : List Octet) : (s.respond ws cs).tblValid = s.tblValid := rfl
@[simp] theorem State.respond_cmd (s : State) (ws : List Word) (cs : List Octet) : (s.respond ws cs).cmd = s.cmd := rfl
@[simp] theorem State.respond_din (s : State) (ws : List Word) (cs : List Octet) : (s.respond ws cs).din = s.din := rfl
@[simp] theorem State.respond_resp (s : State) (ws : List Word) (cs : List Octet) : (s.respond ws cs).resp = s.resp ++ ws := rfl
@[simp] theorem State.respond_dout (s : State) (ws : List Word) (cs : List Octet) : (s.respond ws cs).dout = s.dout ++ cs := rfl
@[simp] theorem State.respond_inProgress (s : State) (ws : List Word) (cs : List Octet) : (s.respond ws cs).inProgress = none := rfl
@[simp] theorem State.respond_wsSet (s : State) (ws : List Word) (cs : List Octet) : (s.respond ws cs).wsSet = s.wsSet := rfl
@[simp] theorem State.respond_host (s : State) (ws : List Word) (cs : List Octet) : (s.respond ws cs).host = s.host := rfl
@[simp] theorem State.respond_unread (s : State) (ws : List Word) (cs : List Octet) : (s.respond ws cs).unread = s.unread := rfl
@[simp] theorem State.respond_poly (s : State) (ws : List Word) (cs : List Octet) : (s.respond ws cs).poly = s.poly := rfl
@[simp] theorem State.respond_degree (s : State) (ws : List Word) (cs : List Octet) : (s.respond ws cs).degree = s.degree := rfl

/-! ### after -/

@[simp] theorem State.after_polyBits (s : State) (n : Nat) (ws : List Word) (cs : List Octet) : (s.after n ws cs).polyBits = s.polyBits := rfl
@[simp] theorem State.after_polyWidth (s : State) (n : Nat) (ws : List Word) (cs : List Octet) : (s.after n ws cs).polyWidth = s.polyWidth := rfl
@[simp] theorem State.after_polyValid (s : State) (n : Nat) (ws : List Word) (cs : List Octet) : (s.after n ws cs).polyValid = s.polyValid := rfl
@[simp] theorem State.after_tbl (s : State) (n : Nat) (ws : List Word) (cs : List Octet) : (s.after n ws cs).tbl = s.tbl := rfl
@[simp] theorem State.after_tblKeyBits (s : State) (n : Nat) (ws : List Word) (cs : List Octet) : (s.after n ws cs).tblKeyBits = s.tblKeyBits := rfl
@[simp] theorem State.after_tblKeyWidth (s : State) (n : Nat) (ws : List Word) (cs : List Octet) : (s.after n ws cs).tblKeyWidth = s.tblKeyWidth := rfl
@[simp] theorem State.after_tblValid (s : State) (n : Nat) (ws : List Word) (cs : List Octet) : (s.after n ws cs).tblValid = s.tblValid := rfl
@[simp] theorem State.after_cmd (s : State) (n : Nat) (ws : List Word) (cs : List Octet) : (s.after n ws cs).cmd = s.cmd := rfl
@[simp] theorem State.after_din (s : State) (n : Nat) (ws : List Word) (cs : List Octet) : (s.after n ws cs).din = s.din.drop n := rfl
@[simp] theorem State.after_resp (s : State) (n : Nat) (ws : List Word) (cs : List Octet) : (s.after n ws cs).resp = s.resp ++ ws := rfl
@[simp] theorem State.after_dout (s : State) (n : Nat) (ws : List Word) (cs : List Octet) : (s.after n ws cs).dout = s.dout ++ cs := rfl
@[simp] theorem State.after_inProgress (s : State) (n : Nat) (ws : List Word) (cs : List Octet) : (s.after n ws cs).inProgress = none := rfl
@[simp] theorem State.after_wsSet (s : State) (n : Nat) (ws : List Word) (cs : List Octet) : (s.after n ws cs).wsSet = s.wsSet := rfl
@[simp] theorem State.after_host (s : State) (n : Nat) (ws : List Word) (cs : List Octet) : (s.after n ws cs).host = s.host := rfl
@[simp] theorem State.after_unread (s : State) (n : Nat) (ws : List Word) (cs : List Octet) : (s.after n ws cs).unread = s.unread := rfl
@[simp] theorem State.after_poly (s : State) (n : Nat) (ws : List Word) (cs : List Octet) : (s.after n ws cs).poly = s.poly := rfl
@[simp] theorem State.after_degree (s : State) (n : Nat) (ws : List Word) (cs : List Octet) : (s.after n ws cs).degree = s.degree := rfl

/-! ### withCache -/

@[simp] theorem State.withCache_polyBits (s : State) (t : Table) (bits : BitVec 128) (width : BitVec 8) (v : Bool) : (s.withCache t bits width v).polyBits = s.polyBits := rfl
@[simp] theorem State.withCache_polyWidth (s : State) (t : Table) (bits : BitVec 128) (width : BitVec 8) (v : Bool) : (s.withCache t bits width v).polyWidth = s.polyWidth := rfl
@[simp] theorem State.withCache_polyValid (s : State) (t : Table) (bits : BitVec 128) (width : BitVec 8) (v : Bool) : (s.withCache t bits width v).polyValid = s.polyValid := rfl
@[simp] theorem State.withCache_tbl (s : State) (t : Table) (bits : BitVec 128) (width : BitVec 8) (v : Bool) : (s.withCache t bits width v).tbl = t := rfl
@[simp] theorem State.withCache_tblKeyBits (s : State) (t : Table) (bits : BitVec 128) (width : BitVec 8) (v : Bool) : (s.withCache t bits width v).tblKeyBits = bits := rfl
@[simp] theorem State.withCache_tblKeyWidth (s : State) (t : Table) (bits : BitVec 128) (width : BitVec 8) (v : Bool) : (s.withCache t bits width v).tblKeyWidth = width := rfl
@[simp] theorem State.withCache_tblValid (s : State) (t : Table) (bits : BitVec 128) (width : BitVec 8) (v : Bool) : (s.withCache t bits width v).tblValid = v := rfl
@[simp] theorem State.withCache_cmd (s : State) (t : Table) (bits : BitVec 128) (width : BitVec 8) (v : Bool) : (s.withCache t bits width v).cmd = s.cmd := rfl
@[simp] theorem State.withCache_din (s : State) (t : Table) (bits : BitVec 128) (width : BitVec 8) (v : Bool) : (s.withCache t bits width v).din = s.din := rfl
@[simp] theorem State.withCache_resp (s : State) (t : Table) (bits : BitVec 128) (width : BitVec 8) (v : Bool) : (s.withCache t bits width v).resp = s.resp := rfl
@[simp] theorem State.withCache_dout (s : State) (t : Table) (bits : BitVec 128) (width : BitVec 8) (v : Bool) : (s.withCache t bits width v).dout = s.dout := rfl
@[simp] theorem State.withCache_inProgress (s : State) (t : Table) (bits : BitVec 128) (width : BitVec 8) (v : Bool) : (s.withCache t bits width v).inProgress = s.inProgress := rfl
@[simp] theorem State.withCache_wsSet (s : State) (t : Table) (bits : BitVec 128) (width : BitVec 8) (v : Bool) : (s.withCache t bits width v).wsSet = s.wsSet := rfl
@[simp] theorem State.withCache_host (s : State) (t : Table) (bits : BitVec 128) (width : BitVec 8) (v : Bool) : (s.withCache t bits width v).host = s.host := rfl
@[simp] theorem State.withCache_unread (s : State) (t : Table) (bits : BitVec 128) (width : BitVec 8) (v : Bool) : (s.withCache t bits width v).unread = s.unread := rfl
@[simp] theorem State.withCache_poly (s : State) (t : Table) (bits : BitVec 128) (width : BitVec 8) (v : Bool) : (s.withCache t bits width v).poly = s.poly := rfl
@[simp] theorem State.withCache_degree (s : State) (t : Table) (bits : BitVec 128) (width : BitVec 8) (v : Bool) : (s.withCache t bits width v).degree = s.degree := rfl

/-! ### withFetchWord -/

@[simp] theorem State.withFetchWord_polyBits (s : State) (nbits w : Nat) : (s.withFetchWord nbits w).polyBits = s.polyBits := rfl
@[simp] theorem State.withFetchWord_polyWidth (s : State) (nbits w : Nat) : (s.withFetchWord nbits w).polyWidth = s.polyWidth := rfl
@[simp] theorem State.withFetchWord_polyValid (s : State) (nbits w : Nat) : (s.withFetchWord nbits w).polyValid = s.polyValid := rfl
@[simp] theorem State.withFetchWord_tbl (s : State) (nbits w : Nat) : (s.withFetchWord nbits w).tbl = s.tbl := rfl
@[simp] theorem State.withFetchWord_tblKeyBits (s : State) (nbits w : Nat) : (s.withFetchWord nbits w).tblKeyBits = s.tblKeyBits := rfl
@[simp] theorem State.withFetchWord_tblKeyWidth (s : State) (nbits w : Nat) : (s.withFetchWord nbits w).tblKeyWidth = s.tblKeyWidth := rfl
@[simp] theorem State.withFetchWord_tblValid (s : State) (nbits w : Nat) : (s.withFetchWord nbits w).tblValid = s.tblValid := rfl
@[simp] theorem State.withFetchWord_cmd (s : State) (nbits w : Nat) : (s.withFetchWord nbits w).cmd = tableWords nbits w ++ s.cmd := rfl
@[simp] theorem State.withFetchWord_din (s : State) (nbits w : Nat) : (s.withFetchWord nbits w).din = s.din := rfl
@[simp] theorem State.withFetchWord_resp (s : State) (nbits w : Nat) : (s.withFetchWord nbits w).resp = s.resp := rfl
@[simp] theorem State.withFetchWord_dout (s : State) (nbits w : Nat) : (s.withFetchWord nbits w).dout = s.dout := rfl
@[simp] theorem State.withFetchWord_inProgress (s : State) (nbits w : Nat) : (s.withFetchWord nbits w).inProgress = none := rfl
@[simp] theorem State.withFetchWord_wsSet (s : State) (nbits w : Nat) : (s.withFetchWord nbits w).wsSet = s.wsSet := rfl
@[simp] theorem State.withFetchWord_host (s : State) (nbits w : Nat) : (s.withFetchWord nbits w).host = .keepsDuties := rfl
@[simp] theorem State.withFetchWord_unread (s : State) (nbits w : Nat) : (s.withFetchWord nbits w).unread = s.unread := rfl
@[simp] theorem State.withFetchWord_poly (s : State) (nbits w : Nat) : (s.withFetchWord nbits w).poly = s.poly := rfl
@[simp] theorem State.withFetchWord_degree (s : State) (nbits w : Nat) : (s.withFetchWord nbits w).degree = s.degree := rfl

/-! ### hostSend -/

@[simp] theorem State.hostSend_polyBits (s : State) (cw : Word) (len : Option Word) (cs : List Octet) : (s.hostSend cw len cs).polyBits = s.polyBits := rfl
@[simp] theorem State.hostSend_polyWidth (s : State) (cw : Word) (len : Option Word) (cs : List Octet) : (s.hostSend cw len cs).polyWidth = s.polyWidth := rfl
@[simp] theorem State.hostSend_polyValid (s : State) (cw : Word) (len : Option Word) (cs : List Octet) : (s.hostSend cw len cs).polyValid = s.polyValid := rfl
@[simp] theorem State.hostSend_tbl (s : State) (cw : Word) (len : Option Word) (cs : List Octet) : (s.hostSend cw len cs).tbl = s.tbl := rfl
@[simp] theorem State.hostSend_tblKeyBits (s : State) (cw : Word) (len : Option Word) (cs : List Octet) : (s.hostSend cw len cs).tblKeyBits = s.tblKeyBits := rfl
@[simp] theorem State.hostSend_tblKeyWidth (s : State) (cw : Word) (len : Option Word) (cs : List Octet) : (s.hostSend cw len cs).tblKeyWidth = s.tblKeyWidth := rfl
@[simp] theorem State.hostSend_tblValid (s : State) (cw : Word) (len : Option Word) (cs : List Octet) : (s.hostSend cw len cs).tblValid = s.tblValid := rfl
@[simp] theorem State.hostSend_cmd (s : State) (cw : Word) (len : Option Word) (cs : List Octet) : (s.hostSend cw len cs).cmd = s.cmd ++ cw :: len.toList := rfl
@[simp] theorem State.hostSend_din (s : State) (cw : Word) (len : Option Word) (cs : List Octet) : (s.hostSend cw len cs).din = s.din ++ cs := rfl
@[simp] theorem State.hostSend_resp (s : State) (cw : Word) (len : Option Word) (cs : List Octet) : (s.hostSend cw len cs).resp = s.resp := rfl
@[simp] theorem State.hostSend_dout (s : State) (cw : Word) (len : Option Word) (cs : List Octet) : (s.hostSend cw len cs).dout = s.dout := rfl
@[simp] theorem State.hostSend_inProgress (s : State) (cw : Word) (len : Option Word) (cs : List Octet) : (s.hostSend cw len cs).inProgress = s.inProgress := rfl
@[simp] theorem State.hostSend_wsSet (s : State) (cw : Word) (len : Option Word) (cs : List Octet) : (s.hostSend cw len cs).wsSet = s.wsSet := rfl
@[simp] theorem State.hostSend_host (s : State) (cw : Word) (len : Option Word) (cs : List Octet) : (s.hostSend cw len cs).host = if s.readWhole then s.host else s.host.breaking .sentEarly := rfl
@[simp] theorem State.hostSend_unread (s : State) (cw : Word) (len : Option Word) (cs : List Octet) : (s.hostSend cw len cs).unread = .response cw len 0 := rfl
@[simp] theorem State.hostSend_poly (s : State) (cw : Word) (len : Option Word) (cs : List Octet) : (s.hostSend cw len cs).poly = s.poly := rfl
@[simp] theorem State.hostSend_degree (s : State) (cw : Word) (len : Option Word) (cs : List Octet) : (s.hostSend cw len cs).degree = s.degree := rfl

/-! ### hostSendRest -/

@[simp] theorem State.hostSendRest_polyBits (s : State) (len : Option Word) (cs : List Octet) : (s.hostSendRest len cs).polyBits = s.polyBits := rfl
@[simp] theorem State.hostSendRest_polyWidth (s : State) (len : Option Word) (cs : List Octet) : (s.hostSendRest len cs).polyWidth = s.polyWidth := rfl
@[simp] theorem State.hostSendRest_polyValid (s : State) (len : Option Word) (cs : List Octet) : (s.hostSendRest len cs).polyValid = s.polyValid := rfl
@[simp] theorem State.hostSendRest_tbl (s : State) (len : Option Word) (cs : List Octet) : (s.hostSendRest len cs).tbl = s.tbl := rfl
@[simp] theorem State.hostSendRest_tblKeyBits (s : State) (len : Option Word) (cs : List Octet) : (s.hostSendRest len cs).tblKeyBits = s.tblKeyBits := rfl
@[simp] theorem State.hostSendRest_tblKeyWidth (s : State) (len : Option Word) (cs : List Octet) : (s.hostSendRest len cs).tblKeyWidth = s.tblKeyWidth := rfl
@[simp] theorem State.hostSendRest_tblValid (s : State) (len : Option Word) (cs : List Octet) : (s.hostSendRest len cs).tblValid = s.tblValid := rfl
@[simp] theorem State.hostSendRest_cmd (s : State) (len : Option Word) (cs : List Octet) : (s.hostSendRest len cs).cmd = s.cmd ++ len.toList := rfl
@[simp] theorem State.hostSendRest_din (s : State) (len : Option Word) (cs : List Octet) : (s.hostSendRest len cs).din = s.din ++ cs := rfl
@[simp] theorem State.hostSendRest_resp (s : State) (len : Option Word) (cs : List Octet) : (s.hostSendRest len cs).resp = s.resp := rfl
@[simp] theorem State.hostSendRest_dout (s : State) (len : Option Word) (cs : List Octet) : (s.hostSendRest len cs).dout = s.dout := rfl
@[simp] theorem State.hostSendRest_inProgress (s : State) (len : Option Word) (cs : List Octet) : (s.hostSendRest len cs).inProgress = s.inProgress := rfl
@[simp] theorem State.hostSendRest_wsSet (s : State) (len : Option Word) (cs : List Octet) : (s.hostSendRest len cs).wsSet = s.wsSet := rfl
@[simp] theorem State.hostSendRest_host (s : State) (len : Option Word) (cs : List Octet) : (s.hostSendRest len cs).host = s.host := rfl
@[simp] theorem State.hostSendRest_unread (s : State) (len : Option Word) (cs : List Octet) : (s.hostSendRest len cs).unread = s.unread.withLen len := rfl
@[simp] theorem State.hostSendRest_poly (s : State) (len : Option Word) (cs : List Octet) : (s.hostSendRest len cs).poly = s.poly := rfl
@[simp] theorem State.hostSendRest_degree (s : State) (len : Option Word) (cs : List Octet) : (s.hostSendRest len cs).degree = s.degree := rfl

/-! ### hostStopsDraining -/

@[simp] theorem State.hostStopsDraining_polyBits (s : State) : s.hostStopsDraining.polyBits = s.polyBits := rfl
@[simp] theorem State.hostStopsDraining_polyWidth (s : State) : s.hostStopsDraining.polyWidth = s.polyWidth := rfl
@[simp] theorem State.hostStopsDraining_polyValid (s : State) : s.hostStopsDraining.polyValid = s.polyValid := rfl
@[simp] theorem State.hostStopsDraining_tbl (s : State) : s.hostStopsDraining.tbl = s.tbl := rfl
@[simp] theorem State.hostStopsDraining_tblKeyBits (s : State) : s.hostStopsDraining.tblKeyBits = s.tblKeyBits := rfl
@[simp] theorem State.hostStopsDraining_tblKeyWidth (s : State) : s.hostStopsDraining.tblKeyWidth = s.tblKeyWidth := rfl
@[simp] theorem State.hostStopsDraining_tblValid (s : State) : s.hostStopsDraining.tblValid = s.tblValid := rfl
@[simp] theorem State.hostStopsDraining_cmd (s : State) : s.hostStopsDraining.cmd = s.cmd := rfl
@[simp] theorem State.hostStopsDraining_din (s : State) : s.hostStopsDraining.din = s.din := rfl
@[simp] theorem State.hostStopsDraining_resp (s : State) : s.hostStopsDraining.resp = s.resp := rfl
@[simp] theorem State.hostStopsDraining_dout (s : State) : s.hostStopsDraining.dout = s.dout := rfl
@[simp] theorem State.hostStopsDraining_inProgress (s : State) : s.hostStopsDraining.inProgress = s.inProgress := rfl
@[simp] theorem State.hostStopsDraining_wsSet (s : State) : s.hostStopsDraining.wsSet = s.wsSet := rfl
@[simp] theorem State.hostStopsDraining_host (s : State) : s.hostStopsDraining.host = s.host.breaking .stopsDraining := rfl
@[simp] theorem State.hostStopsDraining_unread (s : State) : s.hostStopsDraining.unread = s.unread := rfl
@[simp] theorem State.hostStopsDraining_poly (s : State) : s.hostStopsDraining.poly = s.poly := rfl
@[simp] theorem State.hostStopsDraining_degree (s : State) : s.hostStopsDraining.degree = s.degree := rfl

/-! ### Updates on top of each other -/

@[simp] theorem State.after_after (s : State) (n m : Nat) (ws vs : List Word) (cs ds : List Octet) :
    (s.after n ws cs).after m vs ds = s.after (n + m) (ws ++ vs) (cs ++ ds) := by
  simp [State.after, List.drop_drop]

theorem State.takeInput_respond (s : State) (n : Nat) (ws : List Word) (cs : List Octet) :
    (s.takeInput n).respond ws cs = s.after n ws cs := rfl

theorem State.respond_eq_after (s : State) (ws : List Word) (cs : List Octet) : s.respond ws cs = s.after 0 ws cs := rfl

end Sys2Proof.Machine
end

