-- ==== Sys2Proof/Laws/Ops.lean ====
section
/-! SUPPORT. For each shared operation, once, everything it can do: receiving, ending, the checks, the two bodies, the cache. -/

namespace Sys2Proof.Machine

/-! ### receive and raise -/

theorem receive_of_ready {i : Instr} {s : State} (body : List Octet → State → Result) (h : Ready i s) :
    receive i s body = body (s.din.take i.dataLen) (s.takeInput i.dataLen) := if_pos h

theorem receive_of_short {i : Instr} {s : State} (body : List Octet → State → Result) (h : ¬ Ready i s) :
    receive i s body = .next (s.hold i) := if_neg h

theorem receive_cases {i : Instr} {s t : State} {body : List Octet → State → Result}
    (h : receive i s body = .next t) :
    (¬ Ready i s ∧ t = s.hold i) ∨
    (Ready i s ∧ body (s.din.take i.dataLen) (s.takeInput i.dataLen) = .next t) := by
  by_cases hr : Ready i s
  · rw [receive_of_ready body hr] at h; exact .inr ⟨hr, h⟩
  · rw [receive_of_short body hr] at h; exact .inl ⟨hr, by injection h with h; exact h.symm⟩

theorem raise_eq (st : Status) (s : State) : raise st s = .next (s.after 0 [Reply.word { status := st }] []) := rfl

theorem raise_takeInput (st : Status) (s : State) (n : Nat) :
    raise st (s.takeInput n) = .next (s.after n [Reply.word { status := st }] []) := rfl

/-! ### Response words -/

/-- An error's RW0 is the status code and nothing else (R202 (3)). -/
theorem errorWord_toNat (st : Status) : (Reply.word { status := st }).toNat = st.code.toNat := by
  cases st <;> decide

theorem code_ne_zero_iff (st : Status) : st.code.toNat ≠ 0 ↔ st ≠ .ok := by cases st <;> decide

theorem code_le (st : Status) : st.code.toNat ≤ 10 := by cases st <;> decide

theorem statusOf_word (r : Reply) : statusOf r.word = r.status.code.toNat := by
  have h : r.word = ((0#8 ++ r.rwidth ++ 0#5 ++ BitVec.ofBool r.dxp1 ++ BitVec.ofBool r.ndx ++
      BitVec.ofBool r.verdict) ++ r.status.code : BitVec (24 + 8)) := rfl
  have hlt : r.status.code.toNat < 2 ^ 8 := r.status.code.isLt
  rw [statusOf, h, BitVec.toNat_append, show 256 = 2 ^ 8 from rfl, Nat.or_mod_two_pow]
  simpa [Nat.shiftLeft_eq] using hlt

/-! ### The codec's checks -/

theorem any_not_binary_iff (cs : List Octet) : cs.any (fun c => !isBinary c) = true ↔ ¬ AllBinary cs := by
  simp only [List.any_eq_true, Bool.not_eq_true', AllBinary, not_forall]
  constructor
  · rintro ⟨c, hc, hb⟩
    exact ⟨c, hc, fun h => by rw [(isBinary_iff c).2 h] at hb; cases hb⟩
  · rintro ⟨c, hc, hb⟩
    exact ⟨c, hc, by rw [← Bool.not_eq_true, isBinary_iff]; exact hb⟩

theorem encodeChecks_none_iff (s : State) (cs : List Octet) :
    encodeChecks s cs = none ↔ s.polyValid = true ∧ cs ≠ [] ∧ AllBinary cs := by
  unfold encodeChecks
  split
  · simp_all
  · split
    · simp_all [List.length_eq_zero_iff]
    · split
      · rename_i h; rw [any_not_binary_iff] at h; simp [h]
      · rename_i h; rw [any_not_binary_iff, not_not] at h
        simp_all only [List.length_eq_zero_iff, ne_eq, not_false_eq_true, true_and, true_iff, Bool.not_eq_false]
        exact h

theorem decodeChecks_none_iff (s : State) (cs : List Octet) :
    decodeChecks s cs = none ↔ s.polyValid = true ∧ cs ≠ [] ∧ AllBinary cs ∧ s.degree ≤ cs.length := by
  unfold decodeChecks
  split
  · simp_all
  · split
    · simp_all [List.length_eq_zero_iff]
    · split
      · rename_i h; rw [any_not_binary_iff] at h; simp [h]
      · rename_i h; rw [any_not_binary_iff, not_not] at h
        split
        · simp_all [List.length_eq_zero_iff]
        · simp_all only [List.length_eq_zero_iff, ne_eq, not_false_eq_true, true_and, true_iff, Bool.not_eq_false, Nat.not_lt]
          exact ⟨h, trivial⟩

theorem encodeChecks_ne_ok {s : State} {cs : List Octet} {st : Status} (h : encodeChecks s cs = some st) :
    st = .noPolynomial ∨ st = .emptyInput ∨ st = .nonBinaryCharacter := by
  unfold encodeChecks at h
  split at h
  · simp_all
  · split at h
    · simp_all
    · split at h <;> simp_all

theorem decodeChecks_ne_ok {s : State} {cs : List Octet} {st : Status} (h : decodeChecks s cs = some st) :
    st = .noPolynomial ∨ st = .emptyInput ∨ st = .nonBinaryCharacter ∨ st = .tooShort := by
  unfold decodeChecks at h
  split at h
  · simp_all
  · split at h
    · simp_all
    · split at h
      · simp_all
      · split at h <;> simp_all

/-! ### The bodies: an error completion or the engine's result -/

theorem encodeBody_cases {e : List Bool → State → Nat × State} {cs : List Octet} {s t : State}
    (h : encodeBody e cs s = .next t) :
    (∃ st, encodeChecks s cs = some st ∧ t = s.after 0 [Reply.word { status := st }] []) ∨
    (encodeChecks s cs = none ∧
      t = (e (bitsOf cs) s).2.after 0 [Reply.word { status := .ok }]
        (charsOf (codeword (bitsOf cs) s.degree (e (bitsOf cs) s).1))) := by
  unfold encodeBody at h
  split at h
  · rename_i st hc; exact .inl ⟨st, hc, by injection h with h; exact h.symm⟩
  · rename_i hc; exact .inr ⟨hc, by injection h with h; exact h.symm⟩

theorem decodeBody_cases {e : List Bool → State → Bool × State} {cs : List Octet} {s t : State}
    (h : decodeBody e cs s = .next t) :
    (∃ st, decodeChecks s cs = some st ∧ t = s.after 0 [Reply.word { status := st }] []) ∨
    (decodeChecks s cs = none ∧
      t = (e (bitsOf cs) s).2.after 0 [Reply.word { status := .ok, verdict := (e (bitsOf cs) s).1 }] []) := by
  unfold decodeBody at h
  split at h
  · rename_i st hc; exact .inl ⟨st, hc, by injection h with h; exact h.symm⟩
  · rename_i hc; exact .inr ⟨hc, by injection h with h; exact h.symm⟩

theorem checkContent_ne_ok {ws : List Octet} {ew : Nat} {cs : List Octet} {st : Status}
    (h : checkContent ws ew cs = some st) :
    st = .empty ∨ st = .nonBinaryCharacter ∨ st = .lengthMismatch ∨ st = .missingLeadingTerm := by
  unfold checkContent at h
  split at h
  · simp_all
  · split at h
    · simp_all
    · split at h
      · simp_all
      · split at h <;> simp_all

theorem validateBody_cases {fam : Family} {imm8 : BitVec 8} {cs : List Octet} {s t : State}
    (h : validateBody fam imm8 cs s = .next t) :
    (∃ st, (expectedWidth fam imm8 = none ∧ st = .invalidWidth ∨
        ∃ ew, expectedWidth fam imm8 = some ew ∧ checkContent s.wsSet ew (stripWs s.wsSet cs) = some st) ∧
      t = s.after 0 [Reply.word { status := st }] []) ∨
    (∃ ew, expectedWidth fam imm8 = some ew ∧ checkContent s.wsSet ew (stripWs s.wsSet cs) = none ∧
      t = (s.setPoly (BitVec.ofNat 128 (val (bitsOf (stripWs s.wsSet cs)))) (BitVec.ofNat 8 ew)).after 0
        [Reply.word { status := .ok, rwidth := BitVec.ofNat 8 ew }] []) := by
  unfold validateBody at h
  split at h
  · rename_i hw; exact .inl ⟨_, .inl ⟨hw, rfl⟩, by injection h with h; exact h.symm⟩
  · rename_i ew hw
    split at h
    · rename_i st hc; exact .inl ⟨st, .inr ⟨ew, hw, hc⟩, by injection h with h; exact h.symm⟩
    · rename_i hc; exact .inr ⟨ew, hw, hc, by injection h with h; exact h.symm⟩

/-! ### The table and its cache -/

@[simp] theorem entry_buildTable (P W : Nat) (i : BitVec 8) :
    entry (buildTable P W) i = BitVec.ofNat 127 (tableEntry P W i.toNat) := by
  have h : i.toNat < 256 := i.isLt
  simp [entry, buildTable]

theorem keyMatches_iff (s : State) : s.keyMatches = true ↔ s.CacheHit := by
  simp [State.keyMatches, State.CacheHit, and_assoc]

/-- On a hit the cache already is what a table-path command leaves. -/
theorem withTableInUse_of_hit {s : State} (h : s.CacheHit) : s.withTableInUse = s := by
  obtain ⟨hv, hb, hw⟩ := h
  have hT : s.tableInUse = s.tbl := by simp [State.tableInUse, hv, hb, hw]
  unfold State.withTableInUse State.withCache
  rw [hT, ← hb, ← hw]
  cases s
  simp_all

theorem getTable_of_small {s : State} (h : s.degree < 8) : getTable s = (none, s) := by
  simp [getTable, Config.tableMinDegree, h]

theorem getTable_of_large {s : State} (h : 8 ≤ s.degree) :
    getTable s = (some s.tableInUse, s.withTableInUse) := by
  have hd : ¬ s.degree < Config.tableMinDegree := by simp only [Config.tableMinDegree]; omega
  by_cases hk : s.CacheHit
  · have hT : s.tableInUse = s.tbl := by simp only [State.tableInUse, if_pos hk]
    rw [withTableInUse_of_hit hk, hT]
    simp [getTable, hd, (keyMatches_iff s).2 hk]
  · have hT : s.tableInUse = buildTable s.polyBits.toNat s.polyWidth.toNat := by
      simp only [State.tableInUse, if_neg hk]
    have hb : s.keyMatches = false := by rw [← Bool.not_eq_true, keyMatches_iff]; exact hk
    simp only [getTable, hd, if_false, hb, State.withTableInUse, hT]
    rfl

@[simp] theorem tableInUse_takeInput (s : State) (n : Nat) : (s.takeInput n).tableInUse = s.tableInUse := rfl

@[simp] theorem withTableInUse_degree (s : State) : s.withTableInUse.degree = s.degree := rfl

@[simp] theorem withTableInUse_poly (s : State) : s.withTableInUse.poly = s.poly := rfl

theorem takeInput_withTableInUse (s : State) (n : Nat) :
    (s.takeInput n).withTableInUse = s.withTableInUse.takeInput n := rfl

/-- ENCODE.TBL's engine: the fallback, or the table register (R163). -/
theorem tblEncodeEngine_of_small {m : List Bool} {s : State} (h : s.degree < 8) :
    tblEncodeEngine m s = bwEncodeEngine m s := by
  simp [tblEncodeEngine, bwEncodeEngine, getTable_of_small h]

theorem tblEncodeEngine_of_large {m : List Bool} {s : State} (h : 8 ≤ s.degree) :
    tblEncodeEngine m s = (tblReg s.poly s.degree s.tableInUse m, s.withTableInUse) := by
  simp [tblEncodeEngine, getTable_of_large h]

/-- DECODE.TBL's engine: the fallback, or the register compared with the check bits (R164). -/
theorem tblDecodeEngine_of_small {c : List Bool} {s : State} (h : s.degree < 8) :
    tblDecodeEngine c s = bwDecodeEngine c s := by
  simp [tblDecodeEngine, bwDecodeEngine, getTable_of_small h]

theorem tblDecodeEngine_of_large {c : List Bool} {s : State} (h : 8 ≤ s.degree) :
    tblDecodeEngine c s =
      (tblReg s.poly s.degree s.tableInUse (c.take (c.length - s.degree)) == val (c.drop (c.length - s.degree)),
        s.withTableInUse) := by
  simp [tblDecodeEngine, getTable_of_large h]

/-- What TREAD can answer (R145). -/
theorem execTread_cases (index : BitVec 8) (s : State) :
    (s.polyValid = false ∧ execTread index s = .next (s.after 0 [Reply.word { status := .noPolynomial }] [])) ∨
    (s.polyValid = true ∧ s.degree < 8 ∧ execTread index s = .next (s.after 0 [Reply.word { status := .noTable }] [])) ∨
    (s.polyValid = true ∧ 8 ≤ s.degree ∧
      execTread index s = .next (s.withTableInUse.after 0
        (Reply.word { status := .ok } :: payload ((entry s.tableInUse index).zeroExtend 128)) [])) := by
  cases hv : s.polyValid with
  | false => exact .inl ⟨rfl, by simp [execTread, hv, raise_eq]⟩
  | true =>
    by_cases hd : s.degree < 8
    · exact .inr (.inl ⟨rfl, hd, by simp [execTread, hv, getTable_of_small hd, raise_eq]⟩)
    · have hd' : 8 ≤ s.degree := by omega
      exact .inr (.inr ⟨rfl, hd', by
        simp only [execTread, hv, if_true, getTable_of_large hd', State.respond_eq_after]⟩)

/-! ### fetch -/

theorem nextCommand_of_inProgress {s : State} {i : Instr} (h : s.inProgress = some i) : nextCommand s = .run i s := by
  simp [nextCommand, h]

theorem nextCommand_ne_stuck (s : State) (why : Fault) : nextCommand s ≠ .stuck why := by
  unfold nextCommand
  split
  · simp
  · split <;> simp

theorem fetch_of_keepsDuties {s : State} (h : s.host = .keepsDuties) : fetch s = nextCommand s := by simp [fetch, h]

/-- The core has no step exactly when the host has broken a duty, and the reason says which. -/
theorem fetch_stuck_iff (s : State) (why : Fault) : fetch s = .stuck why ↔
    (s.host = .sentEarly ∧ why = .stuckResponseUnread) ∨ (s.host = .stopsDraining ∧ why = .stuckNotDrained) := by
  cases h : s.host <;> simp [fetch, h, nextCommand_ne_stuck, eq_comm (a := why)]

/-! ### The host's acts -/

@[simp] theorem HostConduct.breaking_keepsDuties (duty : HostConduct) : HostConduct.keepsDuties.breaking duty = duty := rfl

theorem HostConduct.breaking_of_ne {noted : HostConduct} (h : noted ≠ .keepsDuties) (duty : HostConduct) :
    noted.breaking duty = noted := by
  cases noted <;> first | exact absurd rfl h | rfl

theorem readWhole_iff (s : State) : s.readWhole = true ↔ s.ReadWhole := by
  simp [State.readWhole, and_assoc]

/-- What reading RESP gives and leaves, for one item or more. -/
theorem hostReadResp_of_cons {s : State} {w : Word} {rest : List Word} (h : s.resp = w :: rest) :
    s.hostReadResp = (some w, { s with resp := rest, unread := s.unread.afterWord w s.degree }) := by
  simp [State.hostReadResp, h]

/-- What reading DOUT gives and leaves, for one item or more. -/
theorem hostReadDout_of_cons {s : State} {c : Octet} {rest : List Octet} (h : s.dout = c :: rest) :
    s.hostReadDout = (some c, { s with dout := rest, unread := s.unread.afterChar }) := by
  simp [State.hostReadDout, h]

@[simp] theorem hostReadResp_host (s : State) : s.hostReadResp.2.host = s.host := by
  cases h : s.resp <;> simp [State.hostReadResp, h]

@[simp] theorem hostReadDout_host (s : State) : s.hostReadDout.2.host = s.host := by
  cases h : s.dout <;> simp [State.hostReadDout, h]

end Sys2Proof.Machine
end

