-- ==== Sys2Proof/Laws/Exec.lean ====
section
/-! SUPPORT. Said once: everything a command and a step can do. Invariants and frames follow by cases on these. -/

namespace Sys2Proof.Machine

/-- The state a command's table use leaves: the state itself, or the state with the active polynomial's table. -/
def TableUse (i : Instr) (s u : State) : Prop :=
  u = s ∨ (i.usesTable = true ∧ 8 ≤ s.degree ∧ u = s.withTableInUse)

/-- Everything that `exec i s = .next t` can mean. -/
inductive Effect : Instr → State → State → Prop where
  /-- Not all characters are there: the command waits. -/
  | waits {i s} (short : ¬ Ready i s) : Effect i s (s.hold i)
  /-- An error completion (R202); ILLEGAL_COMMAND is no command's. -/
  | fails {i s} (st : Status) (ready : Ready i s) (ne : st ≠ .ok) (le : st.code.toNat ≤ 9) :
      Effect i s (s.after i.dataLen [Reply.word { status := st }] [])
  /-- VALIDATE accepts (R100). -/
  | validates {s fam imm8 len ew} (ready : Ready (.validate fam imm8 len) s) (width : expectedWidth fam imm8 = some ew)
      (content : checkContent s.wsSet ew (stripWs s.wsSet (s.din.take len)) = none) :
      Effect (.validate fam imm8 len) s
        ((s.setPoly (BitVec.ofNat 128 (val (bitsOf (stripWs s.wsSet (s.din.take len))))) (BitVec.ofNat 8 ew)).after len
          [Reply.word { status := .ok, rwidth := BitVec.ofNat 8 ew }] [])
  /-- ENCODE sends a codeword (R123, R163). -/
  | encodes {i s u} (rem : Nat) (ready : Ready i s) (enc : i.isEncode = true) (valid : s.polyValid = true)
      (use : TableUse i s u) :
      Effect i s (u.after i.dataLen [Reply.word { status := .ok }]
        (charsOf (codeword (bitsOf (s.din.take i.dataLen)) s.degree rem)))
  /-- DECODE answers a verdict (R124, R164). -/
  | decodes {i s u} (verdict : Bool) (ready : Ready i s) (dec : i.isDecode = true) (valid : s.polyValid = true)
      (use : TableUse i s u) :
      Effect i s (u.after i.dataLen [Reply.word { status := .ok, verdict := verdict }] [])
  /-- TREAD sends an entry (R145). -/
  | reads {s} (k : BitVec 8) (valid : s.polyValid = true) (large : 8 ≤ s.degree) :
      Effect (.tread k) s (s.withTableInUse.after 0
        (Reply.word { status := .ok } :: payload ((entry s.tableInUse k).zeroExtend 128)) [])
  /-- QPOLY reports (R104). -/
  | reports {s} (valid : s.polyValid = true) :
      Effect .qpoly s (s.after 0
        (Reply.word { status := .ok, ndx := ndxFlag s.polyBits, dxp1 := dxp1Flag s.polyBits, rwidth := s.polyWidth }
          :: payload s.polyBits) [])

/-- The table engine leaves the state as a table use does. -/
theorem tblEncodeEngine_state (m : List Bool) (s : State) :
    (tblEncodeEngine m s).2 = s ∨ (8 ≤ s.degree ∧ (tblEncodeEngine m s).2 = s.withTableInUse) := by
  by_cases hd : s.degree < 8
  · left; rw [tblEncodeEngine_of_small hd]; rfl
  · right; exact ⟨by omega, by rw [tblEncodeEngine_of_large (by omega)]⟩

theorem tblDecodeEngine_state (c : List Bool) (s : State) :
    (tblDecodeEngine c s).2 = s ∨ (8 ≤ s.degree ∧ (tblDecodeEngine c s).2 = s.withTableInUse) := by
  by_cases hd : s.degree < 8
  · left; rw [tblDecodeEngine_of_small hd]; rfl
  · right; exact ⟨by omega, by rw [tblDecodeEngine_of_large (by omega)]⟩

/-- ENCODE with any engine that leaves the state as a table use does. -/
theorem encode_effect {i : Instr} {s t : State} {e : List Bool → State → Nat × State} (enc : i.isEncode = true)
    (he : ∀ m (w : State), (e m w).2 = w ∨ (i.usesTable = true ∧ 8 ≤ w.degree ∧ (e m w).2 = w.withTableInUse))
    (h : receive i s (encodeBody e) = .next t) : Effect i s t := by
  rcases receive_cases h with ⟨hs, rfl⟩ | ⟨hr, h⟩
  · exact .waits hs
  rcases encodeBody_cases h with ⟨st, hc, rfl⟩ | ⟨hc, rfl⟩
  · exact .fails st hr (by rcases encodeChecks_ne_ok hc with rfl | rfl | rfl <;> decide)
      (by rcases encodeChecks_ne_ok hc with rfl | rfl | rfl <;> decide)
  · have hv : s.polyValid = true := ((encodeChecks_none_iff _ _).1 hc).1
    rcases he (bitsOf (s.din.take i.dataLen)) (s.takeInput i.dataLen) with h2 | ⟨hu, hd, h2⟩
    · rw [h2]; exact .encodes _ hr enc hv (.inl rfl)
    · rw [h2]; exact .encodes _ hr enc hv (.inr ⟨hu, hd, rfl⟩)

/-- DECODE with any engine that leaves the state as a table use does. -/
theorem decode_effect {i : Instr} {s t : State} {e : List Bool → State → Bool × State} (dec : i.isDecode = true)
    (he : ∀ m (w : State), (e m w).2 = w ∨ (i.usesTable = true ∧ 8 ≤ w.degree ∧ (e m w).2 = w.withTableInUse))
    (h : receive i s (decodeBody e) = .next t) : Effect i s t := by
  rcases receive_cases h with ⟨hs, rfl⟩ | ⟨hr, h⟩
  · exact .waits hs
  rcases decodeBody_cases h with ⟨st, hc, rfl⟩ | ⟨hc, rfl⟩
  · exact .fails st hr (by rcases decodeChecks_ne_ok hc with rfl | rfl | rfl | rfl <;> decide)
      (by rcases decodeChecks_ne_ok hc with rfl | rfl | rfl | rfl <;> decide)
  · have hv : s.polyValid = true := ((decodeChecks_none_iff _ _).1 hc).1
    rcases he (bitsOf (s.din.take i.dataLen)) (s.takeInput i.dataLen) with h2 | ⟨hu, hd, h2⟩
    · rw [h2]; exact .decodes _ hr dec hv (.inl rfl)
    · rw [h2]; exact .decodes _ hr dec hv (.inr ⟨hu, hd, rfl⟩)

/-- Everything a command can do. -/
theorem exec_effect {i : Instr} {s t : State} (h : exec i s = .next t) : Effect i s t := by
  cases i with
  | validate fam imm8 len =>
    rcases receive_cases h with ⟨hs, rfl⟩ | ⟨hr, h⟩
    · exact .waits hs
    rcases validateBody_cases h with ⟨st, hc, rfl⟩ | ⟨ew, hw, hc, rfl⟩
    · have hst : st ≠ .ok ∧ st.code.toNat ≤ 9 := by
        rcases hc with ⟨-, rfl⟩ | ⟨ew, -, hc⟩
        · decide
        · rcases checkContent_ne_ok hc with rfl | rfl | rfl | rfl <;> decide
      exact .fails st hr hst.1 hst.2
    · exact .validates hr hw hc
  | encodeBw len => exact encode_effect rfl (fun _ _ => .inl rfl) h
  | encodeTbl len => exact encode_effect rfl (fun m w => (tblEncodeEngine_state m w).imp id fun h => ⟨rfl, h⟩) h
  | decodeBw len => exact decode_effect rfl (fun _ _ => .inl rfl) h
  | decodeTbl len => exact decode_effect rfl (fun m w => (tblDecodeEngine_state m w).imp id fun h => ⟨rfl, h⟩) h
  | tread k =>
    rcases execTread_cases k s with ⟨-, h'⟩ | ⟨-, -, h'⟩ | ⟨hv, hd, h'⟩
    · cases h.symm.trans h'; exact .fails .noPolynomial (Nat.zero_le _) (by decide) (by decide)
    · cases h.symm.trans h'; exact .fails .noTable (Nat.zero_le _) (by decide) (by decide)
    · cases h.symm.trans h'; exact .reads k hv hd
  | qpoly =>
    simp only [exec, execQpoly] at h
    split at h
    · rename_i hv; cases h; exact .reports hv
    · cases h; exact .fails .noPolynomial (Nat.zero_le _) (by decide) (by decide)

/-- A step goes on only for a host that has broken no duty. -/
theorem host_of_step {s t : State} (h : step s = .next t) : s.host = .keepsDuties := by
  cases hh : s.host with
  | keepsDuties => rfl
  | sentEarly => simp [step, fetch, hh] at h
  | stopsDraining => simp [step, fetch, hh] at h

/-- Everything a step that goes on can do: wait, answer an illegal CW, or run a command, on the state without its words. -/
theorem step_cases {s t : State} (h : step s = .next t) :
    (nextCommand s = .wait ∧ t = s) ∨
    (∃ why rest, nextCommand s = .illegal why (s.setCmd rest) ∧
      t = (s.setCmd rest).after 0 [Reply.word { status := .illegalCommand }] []) ∨
    (∃ i ws, nextCommand s = .run i (s.setCmd ws) ∧ Effect i (s.setCmd ws) t) := by
  have hf := fetch_of_keepsDuties (host_of_step h)
  unfold step at h
  cases hp : s.inProgress with
  | some i =>
    have hn := nextCommand_of_inProgress hp
    rw [hf, hn] at h
    exact .inr (.inr ⟨i, s.cmd, hn, exec_effect h⟩)
  | none =>
    cases hd : decode s.cmd with
    | incomplete =>
      have hn : nextCommand s = .wait := by simp [nextCommand, hp, hd]
      rw [hf, hn] at h; cases h; exact .inl ⟨hn, rfl⟩
    | illegal why rest =>
      have hn : nextCommand s = .illegal why (s.setCmd rest) := by simp [nextCommand, hp, hd]
      rw [hf, hn] at h; cases h; exact .inr (.inl ⟨why, rest, hn, rfl⟩)
    | command i rest =>
      have hn : nextCommand s = .run i (s.setCmd rest) := by simp [nextCommand, hp, hd]
      rw [hf, hn] at h; exact .inr (.inr ⟨i, rest, hn, exec_effect h⟩)

end Sys2Proof.Machine
end

