-- ==== Sys2Proof/Laws/PerInstr.lean ====
section
/-! SUPPORT. A family of statements about every command as syntax, one lemma per constructor: its first word is an instance of
its own row of the mask and match table, and OP alone tells how many words it takes (spec 30_encoding.md R62, R67). -/

namespace Sys2Proof.Laws.OwnRow

/-- The words of a command: the first fits the row of the command's mnemonic and no other row, and there are as many as OP
says. -/
def Statement (i : Instr) : Prop :=
  ∃ cw rest, encode i = cw :: rest ∧ (encode i).length = commandWords cw ∧
    (rows.filter (fun r => r.fits cw)).map Row.mnemonic = [i.mnemonic]

/-- The rows a VALIDATE word fits, for every FAM and IMM8. -/
theorem validateWord (fam : Family) : ∀ imm8 : BitVec 8,
    commandWords (assembleCW 0x01#8 false fam.code imm8) = 2 ∧
    (rows.filter (fun r => r.fits (assembleCW 0x01#8 false fam.code imm8))).map Row.mnemonic = ["validate"] := by
  cases fam <;> decide +kernel

/-- The rows a TREAD word fits, for every INDEX. -/
theorem treadWord : ∀ index : BitVec 8,
    commandWords (assembleCW 0x04#8 false 0#3 index) = 1 ∧
    (rows.filter (fun r => r.fits (assembleCW 0x04#8 false 0#3 index))).map Row.mnemonic = ["tread"] := by
  decide +kernel

theorem validate (fam : Family) (imm8 : BitVec 8) (len : Nat) : Statement (.validate fam imm8 len) :=
  ⟨_, _, rfl, (validateWord fam imm8).1.symm, (validateWord fam imm8).2⟩

theorem encodeBw (len : Nat) : Statement (.encodeBw len) := ⟨_, _, rfl, rfl, rfl⟩

theorem encodeTbl (len : Nat) : Statement (.encodeTbl len) := ⟨_, _, rfl, rfl, rfl⟩

theorem decodeBw (len : Nat) : Statement (.decodeBw len) := ⟨_, _, rfl, rfl, rfl⟩

theorem decodeTbl (len : Nat) : Statement (.decodeTbl len) := ⟨_, _, rfl, rfl, rfl⟩

theorem tread (index : BitVec 8) : Statement (.tread index) :=
  ⟨_, _, rfl, (treadWord index).1.symm, (treadWord index).2⟩

theorem qpoly : Statement .qpoly := ⟨_, _, rfl, rfl, rfl⟩

end Sys2Proof.Laws.OwnRow
end

