-- ==== Sys2Proof/Tests/Slice0.lean ====
section
/-! SUPPORT. The model's own tests. Expected results are the vectors of spec/95_test_vectors.md, the words of 30_encoding.md
and the worked entries of 42_table_generator.md R149. After them, one witness for each obligation that has hypotheses. -/

namespace Sys2Proof.Tests

open Sys2Proof Sys2Proof.Machine

set_option Elab.async false -- one theorem after the other: each kernel evaluation needs a thread with a large stack

/-! ### Helpers -/

/-- The state of a next outcome. -/
def nextOf : Result → Option State
  | .next t => some t
  | .fault _ => none
  | .refused _ => none

/-- What an outcome shows on RESP and DOUT. -/
def shown (r : Result) : Option (List Word × List Octet) := (nextOf r).map fun t => (t.resp, t.dout)

/-- The polynomial group of an outcome. -/
def polyOf (r : Result) : Option (BitVec 128 × BitVec 8 × Bool) :=
  (nextOf r).map fun t => (t.polyBits, t.polyWidth, t.polyValid)

/-- Reset, and then this polynomial active. -/
def withPoly (bits : BitVec 128) (width : BitVec 8) : State :=
  { State.reset with polyBits := bits, polyWidth := width, polyValid := true }

/-- `n` characters of the number `v`. -/
def digits (n v : Nat) : List Octet := charsOf (bitsN n v)

/-- `s` with these words and octets sent, the host having broken no duty. -/
def queued (s : State) (ws : List Word) (cs : List Octet) : State := { s with cmd := s.cmd ++ ws, din := s.din ++ cs }

/-- One step after these words and octets are sent. -/
def run (s : State) (ws : List Word) (cs : List Octet) : Result := step (queued s ws cs)

/-- `0x107`, the polynomial of V-SRC-5. -/
def p107 : State := withPoly 0x107#128 9#8

/-- `1011`, of degree 3. -/
def p1011 : State := withPoly 0xB#128 4#8

/-! ### Ill-formed terms: the one check of each constructor with LEN (20_memory.md R54) -/

theorem test_wf_refuses_validate : (Instr.validate .crc8 0#8 (2 ^ 32)).wf = false := by decide
theorem test_wf_refuses_encodeBw : (Instr.encodeBw (2 ^ 32)).wf = false := by decide
theorem test_wf_refuses_encodeTbl : (Instr.encodeTbl (2 ^ 32)).wf = false := by decide
theorem test_wf_refuses_decodeBw : (Instr.decodeBw (2 ^ 32)).wf = false := by decide
theorem test_wf_refuses_decodeTbl : (Instr.decodeTbl (2 ^ 32)).wf = false := by decide

/-! ### Decoding: words written out from R60 and R63, bits 31 to 24, 23 to 16, 15 to 12, 11 to 9, 8, 7 to 0 -/

theorem test_decode_validate :
    decode [0b00000000_10000000_0000_100_0_00000001#32, 0x80#32] = .command (.validate .custom 128#8 128) [] := by decide
theorem test_decode_validate_reserved :
    decode [0b00000000_11111111_0000_111_0_00000001#32, 0#32] = .command (.validate .reserved7 255#8 0) [] := by decide
theorem test_decode_encodeBw :
    decode [0b00000000_00000000_0000_000_0_00000010#32, 0xFFFFFFFF#32] = .command (.encodeBw 4294967295) [] := by decide
theorem test_decode_encodeTbl :
    decode [0b00000000_00000000_0000_000_1_00000010#32, 3#32, 5#32] = .command (.encodeTbl 3) [5#32] := by decide
theorem test_decode_decodeBw :
    decode [0b00000000_00000000_0000_000_0_00000011#32, 3#32] = .command (.decodeBw 3) [] := by decide
theorem test_decode_decodeTbl :
    decode [0b00000000_00000000_0000_000_1_00000011#32, 3#32] = .command (.decodeTbl 3) [] := by decide
theorem test_decode_tread :
    decode [0b00000000_11010011_0000_000_0_00000100#32, 3#32] = .command (.tread 0xD3#8) [3#32] := by decide
theorem test_decode_qpoly : decode [0b00000000_00000000_0000_000_0_00000101#32] = .command .qpoly [] := by decide

/-- V-IL-1, V-IL-3, V-IL-4, V-IL-7, V-IL-8, V-IL-9, V-IL-12, V-IL-13, V-IL-14. -/
theorem test_decode_illegal :
    [0x00000000#32, 0x000000FF#32].all (fun cw => decode [cw, 0#32] == .illegal .unknownOpcode [0#32]) = true ∧
    [0x00001001#32, 0x00000101#32, 0x00000202#32, 0x00010002#32, 0x00010003#32, 0x00000104#32, 0x00000205#32].all
      (fun cw => decode [cw, 0#32] == .illegal .nonzeroField [0#32]) = true := by decide

/-- The host's own way in: bits numbered as the table numbers them. -/
theorem test_decodeTableWord :
    decodeTableWord 32 0x102 = some (.encodeTbl 0) ∧ decodeTableWord 32 0xFF0004 = some (.tread 255#8) ∧
    decodeTableWord 64 0x900000001 = some (.validate .crc8 0#8 9) ∧ decodeTableWord 32 0x06 = none := by decide

/-! ### One step of each command, against the vectors -/

/-- V-SRC-5. -/
theorem test_validate_accepts :
    shown (run State.reset [0x00000001#32, 9#32] (digits 9 0b100000111)) = some ([0x00090000#32], []) ∧
    polyOf (run State.reset [0x00000001#32, 9#32] (digits 9 0b100000111)) = some (0x107#128, 9#8, true) := by
  decide +kernel

/-- V-VA-9, of thirteen octets with whitespace in them, and V-VA-26, which keeps the old polynomial. -/
theorem test_validate_whitespace_and_failure :
    polyOf (run State.reset [0x00000001#32, 13#32]
      [0x20#8, 0x31#8, 0x20#8, 0x30#8, 0x30#8, 0x30#8, 0x30#8, 0x20#8, 0x30#8, 0x31#8, 0x31#8, 0x31#8, 0x0A#8]) =
      some (0x107#128, 9#8, true) ∧
    shown (run p107 [0x00000201#32, 4#32] (digits 4 0)) = some ([0x00000003#32], []) ∧
    polyOf (run p107 [0x00000201#32, 4#32] (digits 4 0)) = some (0x107#128, 9#8, true) := by decide +kernel

/-- V-SC-1. -/
theorem test_encodeBw_scenario :
    shown (run p107 [0x00000002#32, 14#32] (digits 14 0b11010011101100)) =
      some ([0x00000000#32], digits 22 0b1101001110110000100111) := by decide +kernel

/-- V-BW-12 (`P = x`, `d = 1`) and V-BW-E3 (a space is no binary character). -/
theorem test_encodeBw_edge :
    shown (run (withPoly 0x2#128 2#8) [0x00000002#32, 1#32] [0x31#8]) = some ([0x00000000#32], [0x31#8, 0x30#8]) ∧
    shown (run p107 [0x00000002#32, 4#32] [0x31#8, 0x30#8, 0x20#8, 0x31#8]) = some ([0x00000002#32], []) := by
  decide +kernel

/-- V-SC-2: one full byte and a tail. -/
theorem test_encodeTbl_scenario :
    shown (run p107 [0x00000102#32, 14#32] (digits 14 0b11010011101100)) =
      some ([0x00000000#32], digits 22 0b1101001110110000100111) := by decide +kernel

/-- V-TB-19 and V-TB-23: the build, and none below degree 8 (V-BW-1). -/
theorem test_encodeTbl_cache :
    (nextOf (run p107 [0x00000102#32, 1#32] [0x31#8])).map
      (fun t => (t.tblValid, t.tblKeyBits, t.tblKeyWidth)) = some (true, 0x107#128, 9#8) ∧
    (nextOf (run p1011 [0x00000102#32, 1#32] [0x31#8])).map
      (fun t => (t.tblValid, t.tblKeyBits, t.tblKeyWidth)) = some (false, 0#128, 0#8) ∧
    shown (run p1011 [0x00000102#32, 14#32] (digits 14 0b11010011101100)) =
      some ([0x00000000#32], digits 17 0b11010011101100100) := by decide +kernel

/-- V-BW-D1 and V-BW-D2. -/
theorem test_decodeBw_verdict :
    shown (run p107 [0x00000003#32, 22#32] (digits 22 0b1101001110110000100111)) = some ([0x00000100#32], []) ∧
    shown (run p107 [0x00000003#32, 22#32] (digits 22 0b1100101110110000100111)) = some ([0x00000000#32], []) := by
  decide +kernel

/-- V-BW-DE2 (empty, not too short), V-BW-DE4, and V-BW-D4 (`L = d`). -/
theorem test_decodeBw_lengths :
    shown (run p107 [0x00000003#32, 0#32] []) = some ([0x00000006#32], []) ∧
    shown (run p107 [0x00000003#32, 7#32] (digits 7 0)) = some ([0x00000007#32], []) ∧
    shown (run p107 [0x00000003#32, 8#32] (digits 8 0)) = some ([0x00000100#32], []) := by decide +kernel

/-- V-BW-D16: constant term 0, where the literal table reading would give VERDICT 1. -/
theorem test_decodeTbl_constant_term_zero :
    shown (run (withPoly 0x100#128 9#8) [0x00000103#32, 9#32] (digits 9 0b100000001)) = some ([0x00000000#32], []) ∧
    shown (run (withPoly 0x100#128 9#8) [0x00000103#32, 9#32] (digits 9 0b100000000)) = some ([0x00000100#32], []) := by
  decide +kernel

/-- V-BW-D18 (`d = 16`, two message bytes' worth of check bits) and V-BW-D9 (the fallback). -/
theorem test_decodeTbl_verdict :
    shown (run (withPoly 0x11021#128 17#8) [0x00000103#32, 24#32] (digits 24 0b001100010010011001110010)) =
      some ([0x00000100#32], []) ∧
    shown (run p1011 [0x00000103#32, 17#32] (digits 17 0b11010011101101100)) = some ([0x00000000#32], []) := by
  decide +kernel

/-- V-TB-3 and V-TB-12, an entry of two words, low word first. -/
theorem test_tread_entries :
    shown (run p107 [0x00800004#32] []) = some ([0x00000000#32, 0x00000089#32, 0#32, 0#32, 0#32], []) ∧
    shown (run (withPoly 0x142F0E1EBA9EA3693#128 65#8) [0x00800004#32] []) =
      some ([0x00000000#32, 0x7D3274CD#32, 0xF6FAE5C0#32, 0#32, 0#32], []) := by decide +kernel

/-- V-TB-7 and V-TB-14, of degree 127. -/
theorem test_tread_edge :
    shown (run p1011 [0x00010004#32] []) = some ([0x00000009#32], []) ∧
    shown (run (withPoly 0xC0000000000000000000000000000001#128 128#8) [0x00010004#32] []) =
      some ([0x00000000#32, 0x00000001#32, 0#32, 0#32, 0x40000000#32], []) := by decide +kernel

/-- V-QP-2 and V-QP-8. -/
theorem test_qpoly_reports :
    shown (run p107 [0x00000005#32] []) = some ([0x00090600#32, 0x00000107#32, 0#32, 0#32, 0#32], []) ∧
    shown (run (withPoly 0x80000000000000000000000000000001#128 128#8) [0x00000005#32] []) =
      some ([0x00800600#32, 0x00000001#32, 0#32, 0#32, 0x80000000#32], []) := by decide +kernel

/-- V-QP-1 and V-QP-5. -/
theorem test_qpoly_none_and_odd :
    shown (run State.reset [0x00000005#32] []) = some ([0x00000008#32], []) ∧
    shown (run (withPoly 0x104C11DB7#128 33#8) [0x00000005#32] []) =
      some ([0x00210200#32, 0x04C11DB7#32, 0x00000001#32, 0#32, 0#32], []) := by decide +kernel

/-- V-IL-6: an illegal CW takes one word and nothing from DIN. -/
theorem test_illegal_takes_one_word :
    (nextOf (run State.reset [0x01000001#32, 9#32] [0x31#8])).map (fun t => (t.cmd, t.din, t.resp)) =
      some ([9#32], [0x31#8], [0x0000000A#32]) := by decide +kernel

/-- R41: a command waits for its characters and goes on when they have come. -/
theorem test_command_waits_and_resumes :
    (nextOf (run p107 [0x00000002#32, 1#32] [])).map (fun t => (t.cmd, t.resp, t.inProgress)) =
      some ([], [], some (.encodeBw 1)) ∧
    shown (run { p107 with inProgress := some (.encodeBw 1) } [] [0x31#8]) =
      some ([0x00000000#32], digits 9 0b100000111) := by decide +kernel

/-- The host's question: the row's word runs as the first command after reset. -/
theorem test_first_command_after_reset :
    shown (step (State.reset.withFetchWord 32 0x1)) = some ([0x00000001#32], []) ∧
    shown (step (State.reset.withFetchWord 32 0x102)) = some ([0x00000008#32], []) ∧
    shown (step (State.reset.withFetchWord 32 0x5)) = some ([0x00000008#32], []) := by decide +kernel

/-- R126 and R149: the trace's remainder, and worked entries of two tables. -/
theorem test_worked_values :
    bwEnc (bitsN 14 0b11010011101100) 0x107 8 = 0x27 ∧ bwRem (bitsN 22 0b0101001110110000100111) 0x107 8 = 0b10101110 ∧
    [0, 1, 2, 3, 0x80, 0xD3, 0xFF].map (tableEntry 0x107 9) = [0x00, 0x07, 0x0E, 0x09, 0x89, 0x37, 0xF3] ∧
    [1, 0x80, 0xFF].map (tableEntry 0x11021 17) = [0x1021, 0x9188, 0x1EF0] := by decide +kernel

end Sys2Proof.Tests
end

