-- ==== Sys2Proof/Tests/Witness.lean ====
section
/-! SUPPORT. For every obligation that has hypotheses, a concrete state and operands that meet all of them together; for one
of several clauses, a witness for each clause, at a boundary of its range. -/

namespace Sys2Proof.Tests

open Sys2Proof Sys2Proof.Machine

set_option Elab.async false -- one theorem after the other: each kernel evaluation needs a thread with a large stack

/-- A next outcome whose state passes a check. -/
theorem next_of_check {r : Result} (p : State → Bool) (h : (nextOf r).map p = some true) :
    ∃ t, r = .next t ∧ p t = true := by
  cases r with
  | next t => exact ⟨t, rfl, by simpa [nextOf] using h⟩
  | fault _ => simp [nextOf] at h
  | refused _ => simp [nextOf] at h

/-- `s` with these characters on DIN. -/
def given (s : State) (cs : List Octet) : State := { s with din := cs }

/-- The polynomials of the smallest and the largest width, and of the smallest and the largest degree with a table. -/
def p11 : State := withPoly 0x3#128 2#8
def pMax : State := withPoly 0xC0000000000000000000000000000001#128 128#8

/-- `p107` with its table built. -/
def p107Cached : State := p107.withTableInUse

theorem p107_inv : p107.Inv := by decide
theorem p11_inv : p11.Inv := by decide
theorem pMax_inv : pMax.Inv := by decide +kernel
theorem p107Cached_inv : p107Cached.Inv := by decide +kernel

/-! ### Encoding -/

theorem witness_DecodeOfEncodeIsIdentity :
    (Instr.validate .reserved7 255#8 (2 ^ 32 - 1)).WellFormed ∧ (Instr.encodeBw 0).WellFormed ∧
    (Instr.encodeTbl (2 ^ 32 - 1)).WellFormed ∧ (Instr.decodeBw (2 ^ 32 - 1)).WellFormed ∧
    (Instr.decodeTbl 0).WellFormed ∧ (Instr.tread 255#8).WellFormed ∧ Instr.qpoly.WellFormed := by decide

theorem witness_EncodeOfDecodeIsIdentity :
    decode [0x00FF0E01#32, 0xFFFFFFFF#32, 0#32] = .command (.validate .reserved7 255#8 4294967295) [0#32] ∧
    decode [0x00FF0004#32] = .command (.tread 255#8) [] := by decide

theorem witness_IllegalCommandWords_words :
    ([0x00000000#32, 0x00000006#32, 0x00001001#32, 0x01000001#32, 0x00000101#32, 0x00000202#32, 0x00010003#32,
      0x00000204#32, 0x00010005#32].all fun cw => decide (IllegalWord cw)) = true ∧
    ([0x00FF0E01#32, 0x00000102#32, 0x00000103#32, 0x00FF0004#32, 0x00000005#32].all
      fun cw => decide (¬ IllegalWord cw)) = true := by decide +kernel

theorem witness_IllegalCommandWords :
    (queued State.reset [0x00000006#32, 1#32] []).cmd = 0x00000006#32 :: [1#32] ∧ IllegalWord 0x00000006#32 ∧
    (queued State.reset [0x00000006#32, 1#32] []).inProgress = none ∧
    (queued State.reset [0x00000006#32, 1#32] []).host = .keepsDuties ∧
    decodeCW 0x00000006#32 = .error .unknownOpcode :=
  ⟨rfl, by decide, rfl, by decide, rfl⟩

theorem witness_WordAfterIllegalIsNextCommandWord :
    (queued State.reset [0x000000FF#32, 0#32, 5#32] []).cmd = 0x000000FF#32 :: 0#32 :: [5#32] ∧
    IllegalWord 0x000000FF#32 ∧ IllegalWord 0#32 ∧ decode (5#32 :: []) = .command .qpoly [] ∧
    (queued State.reset [0x000000FF#32, 0#32, 5#32] []).inProgress = none ∧
    (queued State.reset [0x000000FF#32, 0#32, 5#32] []).host = .keepsDuties := by decide +kernel

theorem witness_AssemblyLinesDecode :
    ([] : List Octet).length < 2 ^ 32 ∧ (List.replicate (2 ^ 32 - 1) 0x31#8).length < 2 ^ 32 :=
  ⟨by decide, by rw [List.length_replicate]; decide⟩

/-! ### Steps, channels -/

theorem witness_StepRunsDecodedCommand :
    (queued p107 [5#32] []).inProgress = none ∧ (queued p107 [5#32] []).host = .keepsDuties ∧
    decode (queued p107 [5#32] []).cmd = .command .qpoly [] ∧
    (p107.hold (.encodeBw 1)).inProgress = some (.encodeBw 1) ∧ (p107.hold (.encodeBw 1)).host = .keepsDuties := by decide

theorem witness_CoreWaitsForMissingItems :
    p107.cmd = [] ∧ p107.inProgress = none ∧ p107.host = .keepsDuties ∧
    (queued p107 [0x00000003#32] []).cmd = [0x00000003#32] ∧ ¬ IllegalWord 0x00000003#32 ∧
    cwBits 0x00000003#32 0 8 ≤ 3 ∧ (given p107 [0x31#8]).din.length < (Instr.encodeBw 2).dataLen := by decide +kernel

/-- A host that has left the response to an illegal CW unread. -/
def unread : State := { State.reset with resp := [0x0000000A#32], unread := .response 6#32 none 0 }

/-- The state after one step, or the state itself where there is no next one. -/
def stepped (s : State) : State := (nextOf (step s)).getD s

/-- `p107` after ENCODE.BW of "1", RW0 read and the first `n` characters read. -/
def encoded (n : Nat) : State :=
  (fun t : State => t.hostReadDout.2)^[n] (stepped (p107.hostSend 2#32 (some 1#32) [0x31#8])).hostReadResp.2

/-- R240 (a) by the host's own acts: a CW sent while the command before it is not yet run, or has its response unread, leaves no
step, reading late or not; one sent after the whole response is read runs. -/
theorem test_host_breaks_duty_a :
    step ((State.reset.hostSend 5#32 none []).hostSend 5#32 none []) = .fault .stuckResponseUnread ∧
    step (unread.hostSend 5#32 none []).hostReadResp.2 = .fault .stuckResponseUnread ∧
    shown (step (unread.hostReadResp.2.hostSend 5#32 none [])) = some ([0x00000008#32], []) := ⟨rfl, rfl, rfl⟩

/-- R240 (a): the response of an ENCODE that ends with OK is RW0 and all `LEN + d` characters, here nine. -/
theorem test_host_reads_whole_codeword :
    ((encoded 8).hostSend 5#32 none []).host = .sentEarly ∧ ((encoded 9).hostSend 5#32 none []).host = .keepsDuties := by
  decide +kernel

/-- A host that has broken (b) alone: from `x + 1`, an illegal CW with a LEN (3, which the core frames as DECODE.BW, R210), its
status read, then a QPOLY (which the core frames as LEN 5) with the characters "00000", and that DECODE's response read. -/
def misframed : State :=
  (stepped ((stepped ((withPoly 3#128 2#8).hostSend 6#32 (some 3#32) [])).hostReadResp.2.hostSend 5#32 none
    (digits 5 0))).hostReadResp.2

/-- R240 (b): it has read all that the core has sent, RW0 alone where its QPOLY leads it to expect four words more, and goes on. -/
theorem test_host_breaks_duty_b_only :
    (misframed.unread, misframed.resp, misframed.dout) = (.items 4 0, [], []) ∧
    shown (step (misframed.hostSend 5#32 none [])) = some ([0x00020600#32, 3#32, 0#32, 0#32, 0#32], []) := by
  decide +kernel

/-- R240 (c): a host that stops draining leaves no step, and the duty first broken stays the one noted. -/
theorem test_host_breaks_duty_c :
    step ((State.reset.hostSend 5#32 none []).hostStopsDraining.hostSend 5#32 none []) = .fault .stuckNotDrained := rfl

theorem witness_StuckExactlyWhenHostLeavesResponses :
    (unread.hostSend 5#32 none []).host = .sentEarly ∧ p107.hostStopsDraining.host = .stopsDraining ∧
    p107.host = .keepsDuties := by decide

theorem witness_BrokenDutyLeavesNoStep :
    (p107.host = .keepsDuties ∧ p107.ReadWhole) ∧ (misframed.host = .keepsDuties ∧ misframed.ReadWhole) ∧
    (unread.host = .keepsDuties ∧ ¬ unread.ReadWhole ∧ unread.unread = .response 6#32 none 0 ∧
      unread.resp = 0x0000000A#32 :: []) ∧
    (({ p107 with unread := .items 4 1, resp := [1#32], dout := [0x30#8] } : State).unread = .items 4 1 ∧
      ({ p107 with unread := .items 4 1, resp := [1#32], dout := [0x30#8] } : State).resp ≠ [] ∧
      ({ p107 with unread := .items 4 1, resp := [1#32], dout := [0x30#8] } : State).dout ≠ []) ∧
    (({ unread with dout := [0x30#8] } : State).unread = .response 6#32 none 0 ∧
      ({ unread with dout := [0x30#8] } : State).dout ≠ []) ∧
    step (unread.hostSend 5#32 none []) = .fault .stuckResponseUnread ∧
    step p107.hostStopsDraining = .fault .stuckNotDrained :=
  ⟨by decide, by decide +kernel, by decide, by decide, by decide, rfl, rfl⟩

theorem witness_StepKeepsInvariant :
    (queued p107 [0x00000102#32, 1#32] [0x31#8]).Inv ∧
    ∃ t, step (queued p107 [0x00000102#32, 1#32] [0x31#8]) = .next t ∧ t.tblValid = true :=
  ⟨by decide, next_of_check (fun t => t.tblValid) (by decide +kernel)⟩

theorem witness_ResetDuringCommand :
    (p107Cached.hold (.encodeBw 3)).Inv ∧ (p107Cached.hold (.encodeBw 3)).inProgress ≠ none := by decide +kernel

theorem witness_HostChannelActs :
    ({ p107 with resp := [1#32, 2#32], dout := [0x30#8] } : State).resp = 1#32 :: [2#32] ∧
    ({ p107 with resp := [1#32, 2#32], dout := [0x30#8] } : State).dout = 0x30#8 :: [] ∧
    ({ p107 with resp := [1#32, 2#32], dout := [0x30#8] } : State).Inv ∧ p107.resp = [] ∧ p107.dout = [] := by decide

/-! ### VALIDATE and QPOLY -/

/-- The hypotheses of ValidateAccepts, as one check. -/
abbrev Acceptable (fam : Family) (imm8 : BitVec 8) (ew : Nat) (s : State) : Prop :=
  HasWidth fam imm8 ew ∧ AllBinary (stripWs s.wsSet (s.din.take s.din.length)) ∧
  (stripWs s.wsSet (s.din.take s.din.length)).length = ew ∧
  (stripWs s.wsSet (s.din.take s.din.length)).head? = some 0x31#8

theorem witness_ValidateAccepts_families :
    Acceptable .crc8 255#8 9 (given State.reset (digits 9 0x107)) ∧
    Acceptable .crc16 0#8 17 (given State.reset (digits 17 0x11021)) ∧
    Acceptable .crc32 0#8 33 (given State.reset (digits 33 0x104C11DB7)) ∧
    Acceptable .crc64 0#8 65 (given State.reset (digits 65 0x142F0E1EBA9EA3693)) :=
  ⟨by decide +kernel, by decide +kernel, by decide +kernel, by decide +kernel⟩

theorem witness_ValidateAccepts_custom :
    Acceptable .custom 2#8 2 (given State.reset [0x20#8, 0x31#8, 0x20#8, 0x30#8]) ∧
    Acceptable .custom 128#8 128 (given p107 (digits 128 (2 ^ 127 + 1))) :=
  ⟨by decide +kernel, by decide +kernel⟩

theorem witness_ValidateRejects_width :
    WidthInvalid .custom 1#8 ∧ WidthInvalid .custom 129#8 ∧ WidthInvalid .custom 0#8 ∧ WidthInvalid .custom 255#8 ∧
    WidthInvalid .reserved5 9#8 ∧ WidthInvalid .reserved6 9#8 ∧ WidthInvalid .reserved7 9#8 ∧
    1 ≤ (given p107 [0x31#8]).din.length := by decide

theorem witness_ValidateRejects_content :
    HasWidth .custom 2#8 2 ∧ stripWs Config.wsDefault [0x20#8, 0x09#8] = [] ∧
    (stripWs Config.wsDefault [0x31#8, 0x78#8] ≠ [] ∧ ¬ AllBinary (stripWs Config.wsDefault [0x31#8, 0x78#8])) ∧
    (stripWs Config.wsDefault [0x31#8] ≠ [] ∧ AllBinary (stripWs Config.wsDefault [0x31#8]) ∧
      (stripWs Config.wsDefault [0x31#8]).length ≠ 2) ∧
    ((stripWs Config.wsDefault [0x30#8, 0x31#8]).length = 2 ∧ AllBinary (stripWs Config.wsDefault [0x30#8, 0x31#8]) ∧
      (stripWs Config.wsDefault [0x30#8, 0x31#8]).head? ≠ some 0x31#8) := by decide

theorem witness_ImmediateIgnoredUnlessCustom :
    Family.crc64 ≠ .custom ∧ Family.reserved5 ≠ .custom ∧ 9 ≤ (given p107 (digits 9 0x107)).din.length := by decide

theorem witness_WhitespaceRemovedByValidateOnly :
    3 ≤ (given p107 [0x31#8, 0x20#8, 0x31#8]).din.length ∧ p107.polyValid = true ∧
    [0x31#8, 0x31#8] = ((given p107 [0x31#8, 0x20#8, 0x31#8]).din.take 3).filter (fun c => classOf p107.wsSet c != .ws) ∧
    0x20#8 ∈ (given p107 [0x31#8, 0x20#8, 0x31#8]).din.take 3 ∧ classOf p107.wsSet 0x20#8 = .ws := by decide

theorem witness_ValidateNeverNeedsPolynomial :
    (∃ t, exec (.validate .crc8 0#8 9) (given State.reset (digits 9 0x107)) = .next t ∧
      decide (t.resp = [] ++ [0x00090000#32] ∧ statusOf 0x00090000#32 = 0) = true) ∧
    (∃ t, exec (.validate .custom 1#8 0) State.reset = .next t ∧ decide (t.resp = [] ++ [0x00000005#32]) = true) :=
  ⟨next_of_check _ (by decide +kernel), next_of_check _ (by decide +kernel)⟩

theorem witness_QpolyReports : p107.polyValid = true ∧ pMax.polyValid = true ∧ State.reset.polyValid = false := by decide

theorem witness_EqualBitsEqualWidth :
    p107.PolyInv ∧ p107Cached.PolyInv ∧ p107.polyValid = true ∧ p107Cached.polyValid = true ∧
    p107.polyBits = p107Cached.polyBits := by decide +kernel

theorem witness_OnlySuccessfulValidateWritesPolynomial :
    (∃ t, exec (.validate .crc8 0#8 9) (given p11 (digits 9 0x107)) = .next t ∧
      decide (t.polyBits = 0x107#128) = true) ∧
    (∃ t, step (queued p11 [5#32] []) = .next t ∧ t.polyValid = true) :=
  ⟨next_of_check _ (by decide +kernel), next_of_check _ (by decide +kernel)⟩

/-! ### Engines -/

theorem witness_BitwiseEngineComputesRemainder : HasDegree 0x3 1 ∧ 1 ≤ 1 ∧ HasDegree (2 ^ 127 + 1) 127 := by decide

theorem witness_RemainderIsUnique : HasDegree 0x107 8 ∧ IsRemainder 0x107 0x107 8 0 :=
  ⟨by decide, by decide, [true], by decide⟩

theorem witness_ScanClearsHighBits : HasDegree 0x107 8 ∧ (0xFFFF : Nat) < 2 ^ (8 + 8) ∧ 8 ≤ 8 ∧ 0 ≤ 8 := by decide

theorem witness_DivisionIsLinear :
    HasDegree 0x3 1 ∧ 1 ≤ 1 ∧ [true, false].length = [true, true].length := by decide

theorem witness_TableEntryFacts :
    (8 ≤ 9 - 1 ∧ 9 - 1 ≤ 127 ∧ HasDegree 0x107 (9 - 1) ∧ 255 < 256 ∧ 0 < 256) ∧
    (8 ≤ 128 - 1 ∧ 128 - 1 ≤ 127 ∧ HasDegree (2 ^ 127 + 1) (128 - 1)) := by decide

theorem witness_BitStepIsRemainder : HasDegree 0x3 1 ∧ 1 ≤ 1 ∧ 1 < 2 ^ 1 := by decide

theorem witness_ByteStepIsEightBitSteps :
    (HasDegree 0x107 8 ∧ 8 ≤ 8 ∧ 8 ≤ 127 ∧ 0xFF < 2 ^ 8 ∧ 255 < 256) ∧
    (HasDegree (2 ^ 127 + 1) 127 ∧ 2 ^ 127 - 1 < 2 ^ 127) := by decide

theorem witness_TableRegisterEqualsBitwise :
    HasDegree 0x107 8 ∧ 8 ≤ 8 ∧ 8 ≤ 127 ∧ HasDegree (2 ^ 127 + 1) 127 := by decide

theorem witness_LiteralTableDecode : HasDegree 0x107 8 ∧ 8 ≤ 8 ∧ 8 ≤ 127 ∧ Nat.testBit 0x107 0 = true := by decide

/-! ### ENCODE and DECODE -/

/-- The hypotheses of the completion statements of ENCODE, and of DECODE, as one check over all of DIN. -/
abbrev Encodable (s : State) : Prop := s.polyValid = true ∧ 0 < s.din.length ∧ AllBinary (s.din.take s.din.length)
abbrev Checkable (s : State) : Prop := Encodable s ∧ s.degree ≤ s.din.length

theorem witness_EncodeBwSendsCodeword :
    Encodable (given p107 [0x31#8]) ∧ Encodable (given p11 [0x30#8]) ∧ Encodable (given pMax [0x31#8, 0x31#8]) := by decide

theorem witness_EncodeTblSendsCodeword :
    (Encodable (given p1011 [0x31#8]) ∧ (given p1011 [0x31#8]).degree < 8) ∧
    (Encodable (given p107 [0x31#8]) ∧ 8 ≤ (given p107 [0x31#8]).degree) := by decide

theorem witness_EncodeChecksInOrder :
    (given State.reset [0x31#8]).polyValid = false ∧ p107.polyValid = true ∧ (0 : Nat) ≤ p107.din.length ∧
    (0 < 1 ∧ ¬ AllBinary ((given p107 [0x32#8]).din.take 1)) ∧ AllBinary ((given p107 [0x31#8]).din.take 1) := by decide

theorem witness_DecodeBwReportsVerdict :
    Checkable (given p107 (digits 8 0)) ∧ Checkable (given p11 [0x31#8]) ∧
    Checkable (given pMax (digits 127 1)) := by decide +kernel

theorem witness_DecodeTblReportsVerdict :
    (Checkable (given p1011 (digits 3 0)) ∧ (given p1011 (digits 3 0)).degree < 8) ∧
    (Checkable (given p107 (digits 8 0)) ∧ 8 ≤ (given p107 (digits 8 0)).degree) := by decide

theorem witness_DecodeChecksInOrder :
    (given State.reset [0x31#8]).polyValid = false ∧ p107.polyValid = true ∧
    ¬ AllBinary ((given p107 [0x32#8]).din.take 1) ∧
    (AllBinary ((given p107 (digits 7 0)).din.take 7) ∧ 7 < (given p107 (digits 7 0)).polyWidth.toNat - 1) ∧
    (AllBinary ((given p107 (digits 8 0)).din.take 8) ∧ (given p107 (digits 8 0)).polyWidth.toNat - 1 ≤ 8) := by decide

theorem witness_NothingComputesBeforeValidate :
    State.reset.polyValid = false ∧ (Instr.tread 0#8).isValidate = false ∧ Instr.qpoly.isValidate = false ∧
    (Instr.encodeBw 0).isValidate = false ∧ (Instr.decodeTbl 0).isValidate = false ∧
    (Instr.decodeTbl 0).dataLen ≤ State.reset.din.length := by decide

/-! ### Table and cache -/

theorem witness_TableIsTransparent :
    p107Cached.Inv ∧ p107Cached.polyValid = true ∧ getTable p107Cached = (some p107Cached.tbl, p107Cached) ∧
    p107.Inv ∧ p107.polyValid = true ∧ getTable p107 = (some p107.tableInUse, p107.withTableInUse) :=
  ⟨p107Cached_inv, rfl, rfl, p107_inv, rfl, getTable_of_large (by decide)⟩

theorem witness_TreadSendsEntry :
    (p107.polyValid = true ∧ 8 ≤ p107.degree) ∧ (pMax.polyValid = true ∧ 8 ≤ pMax.degree) := by decide

theorem witness_TreadErrorsInOrder :
    State.reset.polyValid = false ∧ p1011.polyValid = true ∧ p1011.degree < 8 ∧
    (withPoly 0x80#128 8#8).polyValid = true ∧ (withPoly 0x80#128 8#8).degree < 8 := by decide

theorem witness_OnlyBuildsWriteCache :
    ∃ t, exec (.decodeTbl 8) (given p107 (digits 8 0)) = .next t ∧ t.tblValid = true :=
  next_of_check (fun t => t.tblValid) (by decide +kernel)

theorem witness_TreadIsIdempotent : p107.Inv ∧ p107Cached.Inv ∧ p107.SamePoly p107Cached :=
  ⟨p107_inv, p107Cached_inv, rfl, rfl, rfl⟩

theorem witness_InvalidTableIsUnobservable : p107.tblValid = false := rfl

/-! ### Properties of the codec -/

theorem witness_EnginesAreEquivalent :
    (given p107 [0x31#8]).Inv ∧ 1 ≤ (given p107 [0x31#8]).din.length ∧ (given p11 [0x31#8]).Inv := by decide

theorem witness_RoundTripIsValid :
    (given p107 [0x31#8]).Inv ∧ (given p107Cached (digits 9 0x107 ++ [0x30#8])).Inv ∧
    (given p107 [0x31#8]).SamePoly (given p107Cached (digits 9 0x107 ++ [0x30#8])) ∧
    ∃ t, exec (encodeWith false 1) (given p107 [0x31#8]) = .next t ∧
      decide (t.resp = [] ++ [0x00000000#32] ∧ t.dout = [] ++ digits 9 0x107) = true :=
  ⟨by decide, by decide +kernel, by decide, next_of_check _ (by decide +kernel)⟩

theorem witness_SingleFlipIsDetected :
    (given p107 (digits 9 0x107)).Inv ∧ 9 ≤ (given p107 (digits 9 0x107)).din.length ∧
    (given p107 (digits 9 0x107)).polyBits.getLsbD 0 = true ∧
    (true :: List.replicate 8 false).length = 9 ∧ (true :: List.replicate 8 false).count true = 1 ∧
    ∃ t, exec (decodeWith true 9) (given p107 (digits 9 0x107)) = .next t ∧
      decide (t.resp = [] ++ [0x00000100#32]) = true :=
  ⟨by decide, by decide, by decide, by decide, by decide, next_of_check _ (by decide +kernel)⟩

theorem witness_OddFlipsAreDetected :
    (given p107 (digits 9 0x107)).Inv ∧ popcount (given p107 (digits 9 0x107)).polyBits % 2 = 0 ∧
    (List.replicate 9 true).length = 9 ∧ (List.replicate 9 true).count true % 2 = 1 ∧
    ∃ t, exec (decodeWith false 9) (given p107 (digits 9 0x107)) = .next t ∧
      decide (t.resp = [] ++ [0x00000100#32]) = true :=
  ⟨by decide, by decide +kernel, by decide, by decide, next_of_check _ (by decide +kernel)⟩

theorem witness_CodecIsReferentiallyTransparent :
    (given p107 [0x31#8]).Inv ∧ (given p107Cached [0x31#8, 0x30#8]).Inv ∧
    (given p107 [0x31#8]).SamePoly (given p107Cached [0x31#8, 0x30#8]) ∧
    1 ≤ (given p107 [0x31#8]).din.length ∧ 1 ≤ (given p107Cached [0x31#8, 0x30#8]).din.length ∧
    (given p107 [0x31#8]).din.take 1 = (given p107Cached [0x31#8, 0x30#8]).din.take 1 :=
  ⟨by decide, by decide +kernel, by decide, by decide, by decide, by decide⟩

theorem witness_CacheIsUnobservable : p107.Inv ∧ p107Cached.Inv ∧ p107.SameButCache p107Cached :=
  ⟨p107_inv, p107Cached_inv, rfl⟩

/-! ### Framing, responses, frames -/

theorem witness_InputFraming :
    (∃ t, exec (.encodeBw 1) (given p107 [0x31#8]) = .next t ∧ decide (t.din = []) = true) ∧
    (Instr.encodeBw 1).dataLen ≤ (given p107 [0x31#8]).din.length ∧
    (given p107 []).din.length < (Instr.encodeBw 1).dataLen ∧
    decode [0x00000002#32, 1#32] = .command (.encodeBw 1) [] ∧
    ∃ t, step (queued State.reset [6#32] []) = .next t ∧ decide (IllegalWord 6#32) = true :=
  ⟨next_of_check _ (by decide +kernel), by decide, by decide, by decide,
    next_of_check (fun _ => decide (IllegalWord 6#32)) (by decide +kernel)⟩

theorem witness_OutputFraming :
    (Instr.tread 1#8).dataLen ≤ p107.din.length ∧ (∃ t, exec (.tread 1#8) p107 = .next t ∧ t.tblValid = true) ∧
    ∃ t, step (queued State.reset [6#32] []) = .next t ∧ decide (IllegalWord 6#32) = true :=
  ⟨by decide, next_of_check _ (by decide +kernel),
    next_of_check (fun _ => decide (IllegalWord 6#32)) (by decide +kernel)⟩

theorem witness_ErrorCompletion :
    decode (queued (given p107 [0x32#8]) [0x00000103#32, 1#32, 5#32] []).cmd = .command (.decodeTbl 1) [5#32] ∧
    (∃ t, step (queued (given p107 [0x32#8]) [0x00000103#32, 1#32, 5#32] []) = .next t ∧
      decide (t.resp = [] ++ 0x00000002#32 :: [] ∧ statusOf 0x00000002#32 ≠ 0) = true) ∧
    ∃ t, step (queued State.reset [6#32] []) = .next t ∧ decide (IllegalWord 6#32) = true :=
  ⟨by decide +kernel, next_of_check _ (by decide +kernel),
    next_of_check (fun _ => decide (IllegalWord 6#32)) (by decide +kernel)⟩

theorem witness_CodecErrorAtomicity :
    (Instr.decodeTbl 7).isDecode = true ∧ ∃ t, exec (.decodeTbl 7) (given p107 (digits 7 0)) = .next t ∧
      decide (t.resp = [] ++ 0x00000007#32 :: [] ∧ statusOf 0x00000007#32 ≠ 0) = true :=
  ⟨rfl, next_of_check _ (by decide +kernel)⟩

theorem witness_ResponseWordFields :
    (∃ t, exec .qpoly p107 = .next t ∧
      decide (t.resp = [] ++ 0x00090600#32 :: [0x00000107#32, 0#32, 0#32, 0#32]) = true) ∧
    (∃ t, exec (.decodeBw 8) (given p107 (digits 8 0)) = .next t ∧
      decide (t.resp = [] ++ 0x00000100#32 :: []) = true) :=
  ⟨next_of_check _ (by decide +kernel), next_of_check _ (by decide +kernel)⟩

theorem witness_CommandFrames :
    (∃ t, exec .qpoly p107 = .next t ∧ t.polyValid = true) ∧
    (∃ t, exec (.tread 0#8) p107 = .next t ∧ t.tblValid = true) ∧
    ∃ t, exec (.decodeBw 8) (given p107 (digits 8 0)) = .next t ∧ decide (t.din = []) = true :=
  ⟨next_of_check _ (by decide +kernel), next_of_check _ (by decide +kernel), next_of_check _ (by decide +kernel)⟩

end Sys2Proof.Tests
end

/-! Proofs of the family 20_memory.md: illegal command words, and what a command sends. -/

namespace Sys2Proof.Machine

/-! ### The fields of a command word, by arithmetic (30_encoding.md R60) -/

theorem cwBits_op (cw : Word) : cwBits cw 0 8 = (fieldOp cw).toNat := by
  simp [fieldOp, cwBits]

theorem cwBits_t (cw : Word) : cwBits cw 8 1 = (fieldT cw).toNat := by
  simp [fieldT, cwBits, BitVec.getLsbD, Nat.toNat_testBit]

theorem cwBits_fam (cw : Word) : cwBits cw 9 3 = (fieldFam cw).toNat := by
  simp [fieldFam, cwBits, Nat.shiftRight_eq_div_pow]

theorem cwBits_rsv0 (cw : Word) : cwBits cw 12 4 = (fieldRsv0 cw).toNat := by
  simp [fieldRsv0, cwBits, Nat.shiftRight_eq_div_pow]

theorem cwBits_imm8 (cw : Word) : cwBits cw 16 8 = (fieldImm8 cw).toNat := by
  simp [fieldImm8, cwBits, Nat.shiftRight_eq_div_pow]

theorem cwBits_rsv1 (cw : Word) : cwBits cw 24 8 = (fieldRsv1 cw).toNat := by
  simp [fieldRsv1, cwBits, Nat.shiftRight_eq_div_pow]

/-! ### Illegal command words (30_encoding.md R66, 60_exceptions.md R210) -/

/-- The shape of each row of `decodeCW`: the field test `p` gives a head, or an error where it fails. -/
theorem ite_ok_error_iff (p : Prop) [Decidable p] (head : Head) (reason : IllegalReason) :
    (∃ why, (if p then .ok head else .error reason : Except IllegalReason Head) = .error why) ↔ ¬ p := by
  by_cases hp : p <;> simp [hp]

/-- The decoder rejects exactly the words that R66 calls illegal. -/
theorem decodeCW_error_iff (cw : Word) : (∃ why, decodeCW cw = .error why) ↔ IllegalWord cw := by
  simp only [IllegalWord, cwBits_op, cwBits_t, cwBits_fam, cwBits_rsv0, cwBits_imm8, cwBits_rsv1]
  by_cases hop : 1 ≤ (fieldOp cw).toNat ∧ (fieldOp cw).toNat ≤ 5
  · have hcases : fieldOp cw = 0x01#8 ∨ fieldOp cw = 0x02#8 ∨ fieldOp cw = 0x03#8 ∨ fieldOp cw = 0x04#8 ∨
        fieldOp cw = 0x05#8 := by
      simp only [BitVec.toNat_eq, BitVec.toNat_ofNat]
      omega
    rcases hcases with h | h | h | h | h <;>
      simp [decodeCW, reservedZero, h, ite_ok_error_iff, BitVec.toNat_eq, imp_iff_not_or, or_assoc]
  · refine iff_of_true ⟨.unknownOpcode, ?_⟩ (.inl hop)
    have hne (v : BitVec 8) (hv : 1 ≤ v.toNat ∧ v.toNat ≤ 5) : fieldOp cw ≠ v := fun h => hop (h ▸ hv)
    simp [decodeCW, hne]

theorem decode_of_illegalWord {cw : Word} (rest : List Word) (h : IllegalWord cw) :
    ∃ why, decode (cw :: rest) = .illegal why rest := by
  obtain ⟨why, hwhy⟩ := (decodeCW_error_iff cw).2 h
  exact ⟨why, by simp [decode, hwhy]⟩

/-- The whole step at an illegal CW: it leaves CMD alone, and RW0 with ILLEGAL_COMMAND is sent alone (R210). -/
theorem step_of_illegalWord {s : State} {cw : Word} {rest : List Word} (hidle : s.inProgress = none)
    (hhost : s.host = .keepsDuties) (hcmd : s.cmd = cw :: rest) (hcw : IllegalWord cw) :
    step s = .next ((s.setCmd rest).after 0 [0x0000000A#32] []) := by
  obtain ⟨why, hdec⟩ := decode_of_illegalWord rest hcw
  have hfetch : fetch s = .illegal why (s.setCmd rest) := by
    simp [fetch_of_keepsDuties hhost, nextCommand, hidle, hcmd, hdec]
  simp only [step, hfetch]
  rfl

/-! ### What a command sends (20_memory.md R45) -/

@[simp] theorem payload_length (v : BitVec 128) : (payload v).length = 4 := rfl

@[simp] theorem codeword_length (m : List Bool) (d rem : Nat) : (codeword m d rem).length = m.length + d := by
  simp [codeword]

@[simp] theorem ok_code_toNat : Status.ok.code.toNat = 0 := rfl

theorem sendsPayload_of_isEncode : ∀ {i : Instr}, i.isEncode = true → i.sendsPayload = false
  | .encodeBw _, _ | .encodeTbl _, _ => rfl

theorem sendsPayload_of_isDecode : ∀ {i : Instr}, i.isDecode = true → i.sendsPayload = false
  | .decodeBw _, _ | .decodeTbl _, _ => rfl

theorem isEncode_of_isDecode : ∀ {i : Instr}, i.isDecode = true → i.isEncode = false
  | .decodeBw _, _ | .decodeTbl _, _ => rfl

theorem TableUse.resp_eq {i : Instr} {s u : State} (h : TableUse i s u) : u.resp = s.resp := by
  rcases h with rfl | ⟨-, -, rfl⟩ <;> rfl

theorem TableUse.dout_eq {i : Instr} {s u : State} (h : TableUse i s u) : u.dout = s.dout := by
  rcases h with rfl | ⟨-, -, rfl⟩ <;> rfl

/-- From `s` to `t`, `i` has sent RW0, and payload words and characters as R45 counts them. -/
def SendsFramed (i : Instr) (s t : State) : Prop :=
  ∃ (w : Word) (ws : List Word) (cs : List Octet), t.resp = s.resp ++ w :: ws ∧ t.dout = s.dout ++ cs ∧
    ws.length = (if statusOf w = 0 ∧ i.sendsPayload = true then 4 else 0) ∧
    cs.length = (if statusOf w = 0 ∧ i.isEncode = true then i.dataLen + s.degree else 0)

/-- Only ENCODE, TREAD and QPOLY send more than RW0, and only with OK. -/
theorem Effect.sendsFramed {i : Instr} {s t : State} (ready : Ready i s) (h : Effect i s t) : SendsFramed i s t := by
  cases h with
  | waits short => exact absurd ready short
  | fails st _ ne _ =>
    have hst : statusOf (Reply.word { status := st }) ≠ 0 := by
      rw [statusOf_word]; exact (code_ne_zero_iff st).2 ne
    exact ⟨_, [], [], rfl, rfl, by simp [hst], by simp [hst]⟩
  | validates => exact ⟨_, [], [], rfl, rfl, by simp [Instr.sendsPayload], by simp [Instr.isEncode]⟩
  | encodes rem _ enc _ use =>
    refine ⟨_, [], _, by rw [State.after_resp, use.resp_eq], by rw [State.after_dout, use.dout_eq], ?_, ?_⟩
    · simp [sendsPayload_of_isEncode enc]
    · simp [statusOf_word, enc, Nat.min_eq_left ready]
  | decodes verdict _ dec _ use =>
    refine ⟨_, [], [], by rw [State.after_resp, use.resp_eq], by rw [State.after_dout, use.dout_eq], ?_, ?_⟩
    · simp [sendsPayload_of_isDecode dec]
    · simp [isEncode_of_isDecode dec]
  | reads k => exact ⟨_, payload _, [], rfl, rfl, by simp [statusOf_word, Instr.sendsPayload], by simp [Instr.isEncode]⟩
  | reports => exact ⟨_, payload _, [], rfl, rfl, by simp [statusOf_word, Instr.sendsPayload], by simp [Instr.isEncode]⟩

/-- Settles O54: the first part by cases on what a command can do (`Effect`), the second by the step at an illegal CW. -/
theorem outputFraming : Obligations.OutputFraming := by
  refine ⟨fun i s t ready h => (exec_effect h).sendsFramed ready, fun s t cw rest hidle hcmd hcw h => ?_⟩
  cases h.symm.trans (step_of_illegalWord hidle (host_of_step h) hcmd hcw)
  simp

end Sys2Proof.Machine

/-! Proofs of the family 30_encoding.md: the rows of the mask and match table and the words they leave illegal, and the
worked encodings. -/

namespace Sys2Proof.Machine

/-! ### A command word is its fields (R60) -/

/-- A word is told by its six fields: they leave no bit of it out. -/
theorem word_ext_iff {v w : Word} :
    v = w ↔ fieldOp v = fieldOp w ∧ fieldT v = fieldT w ∧ fieldFam v = fieldFam w ∧ fieldRsv0 v = fieldRsv0 w ∧
      fieldImm8 v = fieldImm8 w ∧ fieldRsv1 v = fieldRsv1 w := by
  constructor
  · rintro rfl
    exact ⟨rfl, rfl, rfl, rfl, rfl, rfl⟩
  · rintro ⟨hop, ht, hfam, hrsv0, himm8, hrsv1⟩
    have ht' := congrArg Bool.toNat ht
    rw [BitVec.toNat_eq] at hop hfam hrsv0 himm8 hrsv1 ⊢
    simp only [← cwBits_op, ← cwBits_t, ← cwBits_fam, ← cwBits_rsv0, ← cwBits_imm8, ← cwBits_rsv1, cwBits]
      at hop ht' hfam hrsv0 himm8 hrsv1
    omega

/-- A word fits a mask and match pair exactly when each of its fields does. -/
theorem masked_eq_iff_fields (cw mask pattern : Word) :
    cw &&& mask = pattern ↔
      fieldOp cw &&& fieldOp mask = fieldOp pattern ∧ (fieldT cw && fieldT mask) = fieldT pattern ∧
      fieldFam cw &&& fieldFam mask = fieldFam pattern ∧ fieldRsv0 cw &&& fieldRsv0 mask = fieldRsv0 pattern ∧
      fieldImm8 cw &&& fieldImm8 mask = fieldImm8 pattern ∧ fieldRsv1 cw &&& fieldRsv1 mask = fieldRsv1 pattern := by
  rw [word_ext_iff]
  simp [fieldOp, fieldT, fieldFam, fieldRsv0, fieldImm8, fieldRsv1, BitVec.extractLsb'_and]

/-! ### The rows of the mask and match table (R67) -/

/-- What the seven rows ask of the fields: each row fixes a field whole or not at all, and ENCODE and DECODE have a row for
either value of T. -/
theorem exists_row_iff_fields (cw : Word) :
    (∃ r ∈ rows, cw &&& r.mask = r.pattern) ↔
      fieldRsv0 cw = 0#4 ∧ fieldRsv1 cw = 0#8 ∧
      (fieldOp cw = 0x01#8 ∧ fieldT cw = false ∨
       (fieldOp cw = 0x02#8 ∨ fieldOp cw = 0x03#8) ∧ fieldFam cw = 0#3 ∧ fieldImm8 cw = 0#8 ∨
       fieldOp cw = 0x04#8 ∧ fieldT cw = false ∧ fieldFam cw = 0#3 ∨
       fieldOp cw = 0x05#8 ∧ fieldT cw = false ∧ fieldFam cw = 0#3 ∧ fieldImm8 cw = 0#8) := by
  have ones8 (v : BitVec 8) : v &&& 255#8 = v := BitVec.and_allOnes
  have ones4 (v : BitVec 4) : v &&& 15#4 = v := BitVec.and_allOnes
  have ones3 (v : BitVec 3) : v &&& 7#3 = v := BitVec.and_allOnes
  simp only [rows, List.mem_cons, List.not_mem_nil, or_false, exists_eq_or_imp, ↓existsAndEq, true_and,
    masked_eq_iff_fields, fieldOp, fieldT, fieldFam, fieldRsv0, fieldImm8, fieldRsv1, BitVec.reduceExtractLsb',
    Nat.reduceLT, BitVec.getLsbD_eq_getElem, BitVec.reduceGetElem, BitVec.getElem_one, OfNat.ofNat_ne_zero,
    decide_false, ones8, ones4, ones3, BitVec.and_zero, Bool.and_true]
  grind

/-- The rows cover exactly the words that R66 does not call illegal. -/
theorem illegalWord_iff_no_row (cw : Word) : IllegalWord cw ↔ ¬ ∃ r ∈ rows, cw &&& r.mask = r.pattern := by
  rw [exists_row_iff_fields]
  simp only [IllegalWord, cwBits_op, cwBits_t, cwBits_fam, cwBits_rsv0, cwBits_imm8, cwBits_rsv1]
  simp only [BitVec.toNat_eq, BitVec.toNat_ofNat, ← Bool.toNat_eq_zero]
  omega

/-- A word that fits two rows makes their patterns agree wherever both masks fix a bit. -/
theorem patterns_agree_of_fits_both {r q : Row} {cw : Word} (hr : cw &&& r.mask = r.pattern)
    (hq : cw &&& q.mask = q.pattern) : r.pattern &&& q.mask = q.pattern &&& r.mask := by
  rw [← hr, ← hq, BitVec.and_assoc, BitVec.and_assoc, BitVec.and_comm r.mask]

/-- Any two rows differ in a bit that both masks fix. -/
theorem rows_patterns_disagree :
    rows.Pairwise fun r q => r.pattern &&& q.mask ≠ q.pattern &&& r.mask := by decide

theorem rows_never_overlap :
    rows.Pairwise fun r q => ¬ ∃ cw : Word, cw &&& r.mask = r.pattern ∧ cw &&& q.mask = q.pattern :=
  rows_patterns_disagree.imp fun hne ⟨_, hr, hq⟩ => hne (patterns_agree_of_fits_both hr hq)

/-- Settles O3: the rows are compared with R66 field by field, two rows by the bits both fix, and the step is that of
`step_of_illegalWord`. -/
theorem illegalCommandWords : Obligations.IllegalCommandWords := by
  refine ⟨illegalWord_iff_no_row, rows_never_overlap, fun s cw rest hidle hhost hcmd hcw => ?_,
    fun cw why h => (decodeCW_error_iff cw).1 ⟨why, h⟩⟩
  rw [step_of_illegalWord hidle hhost hcmd hcw]
  simp [State.after, State.setCmd, hidle]

/-! ### The worked encodings (R74) -/

/-- Settles O5: each line and each word of the rule, evaluated. -/
theorem workedEncodings : Obligations.WorkedEncodings := by
  unfold Obligations.WorkedEncodings
  decide

end Sys2Proof.Machine

/-! Proofs of the family 40_validator.md: what VALIDATE rejects, and what it alone removes. -/

namespace Sys2Proof.Machine

/-! ### Character classes (R16) and whitespace removal (40_validator.md R101) -/

@[simp] theorem classOf_zeroChar (wsSet : List Octet) : classOf wsSet 0x30#8 = .zero := rfl

@[simp] theorem classOf_oneChar (wsSet : List Octet) : classOf wsSet 0x31#8 = .one := rfl

theorem classOf_of_not_binary (wsSet : List Octet) {c : Octet} (hc : ¬ (c = 0x30#8 ∨ c = 0x31#8)) :
    classOf wsSet c = if c ∈ wsSet then .ws else .other := by
  obtain ⟨h0, h1⟩ := not_or.1 hc
  simp [classOf, Config.charZero, Config.charOne, h0, h1]

theorem classOf_eq_one_iff (wsSet : List Octet) (c : Octet) : classOf wsSet c = .one ↔ c = 0x31#8 := by
  by_cases hc : c = 0x30#8 ∨ c = 0x31#8
  · rcases hc with rfl | rfl <;> simp
  · have h1 : c ≠ 0x31#8 := (not_or.1 hc).2
    rw [classOf_of_not_binary wsSet hc]
    split <;> simp [h1]

/-- The characters `0` and `1` are those of class ZERO or ONE, whatever WS_SET holds: they are neither WS nor OTHER. -/
theorem classOf_ws_or_other_iff (wsSet : List Octet) (c : Octet) :
    classOf wsSet c = .ws ∨ classOf wsSet c = .other ↔ ¬ (c = 0x30#8 ∨ c = 0x31#8) := by
  by_cases hc : c = 0x30#8 ∨ c = 0x31#8
  · rcases hc with rfl | rfl <;> simp
  · rw [classOf_of_not_binary wsSet hc]
    split <;> simp [hc]

/-- An octet of class WS keeps a string from being binary. -/
theorem not_allBinary_of_mem_ws {wsSet cs : List Octet} {c : Octet} (hc : c ∈ cs) (hws : classOf wsSet c = .ws) :
    ¬ AllBinary cs :=
  fun hbin => (classOf_ws_or_other_iff wsSet c).1 (.inl hws) (hbin c hc)

theorem classOf_ne_ws_of_mem_stripWs {wsSet cs : List Octet} {c : Octet} (hc : c ∈ stripWs wsSet cs) :
    classOf wsSet c ≠ .ws := by
  simpa using (List.mem_filter.1 hc).2

@[simp] theorem stripWs_stripWs (wsSet cs : List Octet) : stripWs wsSet (stripWs wsSet cs) = stripWs wsSet cs := by
  simp [stripWs]

/-- In a stripped string, the octets of class OTHER are exactly those that are not binary. -/
theorem any_other_stripWs_iff (wsSet cs : List Octet) :
    (stripWs wsSet cs).any (fun c => classOf wsSet c == .other) = true ↔ ¬ AllBinary (stripWs wsSet cs) := by
  simp only [List.any_eq_true, beq_iff_eq, AllBinary, not_forall, exists_prop]
  refine exists_congr fun c => and_congr_right fun hc => ?_
  rw [← classOf_ws_or_other_iff wsSet c, or_iff_right (classOf_ne_ws_of_mem_stripWs hc)]

/-! ### The expected width (30_encoding.md R64) -/

theorem expectedWidth_eq_some_iff (fam : Family) (imm8 : BitVec 8) (ew : Nat) :
    expectedWidth fam imm8 = some ew ↔ HasWidth fam imm8 ew := by
  cases fam with
  | custom =>
    simp only [expectedWidth, Option.ite_none_right_eq_some, Option.some.injEq]
    simp only [Config.widthMin, Config.widthMax, HasWidth, reduceCtorEq, false_and, true_and, false_or]
    omega
  | crc8 | crc16 | crc32 | crc64 | reserved5 | reserved6 | reserved7 =>
    simp [expectedWidth, HasWidth, eq_comm]

theorem expectedWidth_eq_none_iff (fam : Family) (imm8 : BitVec 8) :
    expectedWidth fam imm8 = none ↔ WidthInvalid fam imm8 := by
  cases fam with
  | custom =>
    simp only [expectedWidth, ite_eq_right_iff, reduceCtorEq, imp_false]
    simp only [Config.widthMin, Config.widthMax, WidthInvalid, reduceCtorEq, true_and, false_or]
    omega
  | crc8 | crc16 | crc32 | crc64 | reserved5 | reserved6 | reserved7 => simp [expectedWidth, WidthInvalid]

theorem HasWidth.two_le {fam : Family} {imm8 : BitVec 8} {ew : Nat} (h : HasWidth fam imm8 ew) : 2 ≤ ew := by
  omega

/-! ### VALIDATE's content checks (40_validator.md R102) -/

/-- The four checks on a stripped string, in their order, by its characters. -/
theorem checkContent_stripWs (wsSet : List Octet) (ew : Nat) (cs : List Octet) :
    checkContent wsSet ew (stripWs wsSet cs) =
      if stripWs wsSet cs = [] then some .empty
      else if ¬ AllBinary (stripWs wsSet cs) then some .nonBinaryCharacter
      else if (stripWs wsSet cs).length ≠ ew then some .lengthMismatch
      else if (stripWs wsSet cs).head? ≠ some 0x31#8 then some .missingLeadingTerm
      else none := by
  have hhead : (stripWs wsSet cs).head?.map (classOf wsSet) = some .one ↔ (stripWs wsSet cs).head? = some 0x31#8 := by
    simp [classOf_eq_one_iff]
  simp only [checkContent, List.length_eq_zero_iff, any_other_stripWs_iff, ne_eq, hhead]

/-! ### VALIDATE with all its characters there -/

theorem exec_validate_of_ready {fam : Family} {imm8 : BitVec 8} {len : Nat} {s : State} (ready : len ≤ s.din.length) :
    exec (.validate fam imm8 len) s = validateBody fam imm8 (s.din.take len) (s.takeInput len) :=
  receive_of_ready (i := .validate fam imm8 len) _ ready

theorem exec_validate_of_widthInvalid {fam : Family} {imm8 : BitVec 8} {len : Nat} {s : State}
    (ready : len ≤ s.din.length) (hw : WidthInvalid fam imm8) :
    exec (.validate fam imm8 len) s = .next (s.after len [Reply.word { status := .invalidWidth }] []) := by
  rw [exec_validate_of_ready ready]
  simp only [validateBody, (expectedWidth_eq_none_iff fam imm8).2 hw, raise_takeInput]

theorem exec_validate_of_checkContent {fam : Family} {imm8 : BitVec 8} {len ew : Nat} {s : State} {st : Status}
    (ready : len ≤ s.din.length) (hw : HasWidth fam imm8 ew)
    (hc : checkContent s.wsSet ew (stripWs s.wsSet (s.din.take len)) = some st) :
    exec (.validate fam imm8 len) s = .next (s.after len [Reply.word { status := st }] []) := by
  rw [exec_validate_of_ready ready]
  simp only [validateBody, (expectedWidth_eq_some_iff fam imm8 ew).2 hw, State.takeInput_wsSet, hc, raise_takeInput]

/-- Settles O17: the width is judged first, and then `checkContent_stripWs` gives each case its status. -/
theorem validateRejects : Obligations.ValidateRejects := by
  rintro fam imm8 len ew s p ready rfl
  refine ⟨fun hw => exec_validate_of_widthInvalid ready hw, fun hw => ?_⟩
  have rejects (st : Status) := exec_validate_of_checkContent (st := st) ready hw
  simp only [checkContent_stripWs] at rejects
  refine ⟨fun hnil => rejects .empty ?_, fun hne hbin => rejects .nonBinaryCharacter ?_,
    fun hne hbin hlen => rejects .lengthMismatch ?_, fun hlen hbin hhead => rejects .missingLeadingTerm ?_⟩
  · rw [if_pos hnil]
  · rw [if_neg hne, if_pos hbin]
  · rw [if_neg hne, if_neg (not_not_intro hbin), if_pos hlen]
  · have hne : stripWs s.wsSet (s.din.take len) ≠ [] := by
      rw [← List.length_pos_iff, hlen]
      exact Nat.lt_of_lt_of_le Nat.two_pos hw.two_le
    rw [if_neg hne, if_neg (not_not_intro hbin), if_neg (not_not_intro hlen), if_pos hhead]

/-! ### Whitespace, for VALIDATE and for ENCODE and DECODE (40_validator.md R101) -/

theorem validateBody_stripWs (fam : Family) (imm8 : BitVec 8) (cs : List Octet) (s : State) :
    validateBody fam imm8 (stripWs s.wsSet cs) s = validateBody fam imm8 cs s := by
  simp only [validateBody, stripWs_stripWs]

/-- VALIDATE does not see whether the host or the core removes the whitespace. -/
theorem exec_validate_stripWs {fam : Family} {imm8 : BitVec 8} {len : Nat} {s : State} (ready : len ≤ s.din.length) :
    exec (.validate fam imm8 len) s =
      exec (.validate fam imm8 (stripWs s.wsSet (s.din.take len)).length)
        { s with din := stripWs s.wsSet (s.din.take len) ++ s.din.drop len } := by
  rw [exec_validate_of_ready ready, exec_validate_of_ready (by simp)]
  simp only [State.takeInput, List.take_left, List.drop_left]
  exact (validateBody_stripWs fam imm8 (s.din.take len) (s.takeInput len)).symm

theorem length_ne_zero_of_not_allBinary {cs : List Octet} (h : ¬ AllBinary cs) : cs.length ≠ 0 := by
  intro h0
  simp [List.length_eq_zero_iff.1 h0] at h

theorem encodeChecks_of_not_allBinary {s : State} {cs : List Octet} (hv : s.polyValid = true) (h : ¬ AllBinary cs) :
    encodeChecks s cs = some .nonBinaryCharacter := by
  simp only [encodeChecks, hv, Bool.true_eq_false, length_ne_zero_of_not_allBinary h,
    (any_not_binary_iff cs).2 h, if_true, if_false]

theorem decodeChecks_of_not_allBinary {s : State} {cs : List Octet} (hv : s.polyValid = true) (h : ¬ AllBinary cs) :
    decodeChecks s cs = some .nonBinaryCharacter := by
  simp only [decodeChecks, hv, Bool.true_eq_false, length_ne_zero_of_not_allBinary h,
    (any_not_binary_iff cs).2 h, if_true, if_false]

/-- ENCODE, whatever its engine, on characters that are not all binary. -/
theorem receive_encodeBody_of_not_allBinary {i : Instr} {s : State} (engine : List Bool → State → Nat × State)
    (ready : Ready i s) (hv : s.polyValid = true) (h : ¬ AllBinary (s.din.take i.dataLen)) :
    receive i s (encodeBody engine) =
      .next (s.after i.dataLen [Reply.word { status := .nonBinaryCharacter }] []) := by
  have hc := encodeChecks_of_not_allBinary (s := s.takeInput i.dataLen) hv h
  simp only [receive_of_ready _ ready, encodeBody, hc, raise_takeInput]

/-- DECODE, whatever its engine, on characters that are not all binary. -/
theorem receive_decodeBody_of_not_allBinary {i : Instr} {s : State} (engine : List Bool → State → Bool × State)
    (ready : Ready i s) (hv : s.polyValid = true) (h : ¬ AllBinary (s.din.take i.dataLen)) :
    receive i s (decodeBody engine) =
      .next (s.after i.dataLen [Reply.word { status := .nonBinaryCharacter }] []) := by
  have hc := decodeChecks_of_not_allBinary (s := s.takeInput i.dataLen) hv h
  simp only [receive_of_ready _ ready, decodeBody, hc, raise_takeInput]

theorem exec_encodeWith_of_not_allBinary {t : Bool} {len : Nat} {s : State} (ready : len ≤ s.din.length)
    (hv : s.polyValid = true) (h : ¬ AllBinary (s.din.take len)) :
    exec (encodeWith t len) s = .next (s.after len [Reply.word { status := .nonBinaryCharacter }] []) := by
  cases t with
  | false => exact receive_encodeBody_of_not_allBinary (i := .encodeBw len) bwEncodeEngine ready hv h
  | true => exact receive_encodeBody_of_not_allBinary (i := .encodeTbl len) tblEncodeEngine ready hv h

theorem exec_decodeWith_of_not_allBinary {t : Bool} {len : Nat} {s : State} (ready : len ≤ s.din.length)
    (hv : s.polyValid = true) (h : ¬ AllBinary (s.din.take len)) :
    exec (decodeWith t len) s = .next (s.after len [Reply.word { status := .nonBinaryCharacter }] []) := by
  cases t with
  | false => exact receive_decodeBody_of_not_allBinary (i := .decodeBw len) bwDecodeEngine ready hv h
  | true => exact receive_decodeBody_of_not_allBinary (i := .decodeTbl len) tblDecodeEngine ready hv h

/-- Settles O19: removing whitespace twice is removing it once, and to ENCODE and DECODE an octet of class WS is one that is
not binary. -/
theorem whitespaceRemovedByValidateOnly : Obligations.WhitespaceRemovedByValidateOnly := by
  refine ⟨?_, fun t len s c ready hv hmem hws => ?_⟩
  · rintro fam imm8 len s p ready rfl
    exact exec_validate_stripWs ready
  · have hbin : ¬ AllBinary (s.din.take len) := not_allBinary_of_mem_ws hmem hws
    exact ⟨exec_encodeWith_of_not_allBinary ready hv hbin, exec_decodeWith_of_not_allBinary ready hv hbin⟩

end Sys2Proof.Machine

/-! Proofs of the family 42_table_generator.md: the facts about table entries, which commands write the cache, and what TREAD
sends. -/

namespace Sys2Proof.Machine

/-! ### Values of a given degree (41_bitwise_engine.md R120) -/

/-- A value whose bit `n` is the highest it can have, and is 0, is one bit shorter. -/
theorem lt_two_pow_of_testBit_eq_false {a n : Nat} (ha : a < 2 ^ (n + 1)) (hbit : a.testBit n = false) : a < 2 ^ n := by
  by_contra hge
  have htop := Nat.testBit_of_two_pow_le_and_two_pow_add_one_gt (Nat.le_of_not_lt hge) ha
  simp [hbit] at htop

theorem HasDegree.testBit_self {P d : Nat} (hP : HasDegree P d) : P.testBit d = true := by
  simp [Nat.testBit, hP]

theorem HasDegree.lt_two_pow {P d : Nat} (hP : HasDegree P d) : P < 2 ^ (d + 1) := by
  rw [HasDegree, Nat.shiftRight_eq_div_pow] at hP
  rw [pow_succ', ← Nat.div_lt_iff_lt_mul (Nat.two_pow_pos d), hP]
  decide

/-- Cancelling the leading bit of `A` with the leading bit of `P` leaves a value one bit shorter. -/
theorem HasDegree.xor_shiftLeft_lt {P d A k : Nat} (hP : HasDegree P d) (hA : A < 2 ^ (d + k + 1))
    (htop : A.testBit (d + k) = true) : A ^^^ (P <<< k) < 2 ^ (d + k) := by
  have hPk : P <<< k < 2 ^ (d + k + 1) := by
    rw [Nat.add_right_comm]
    exact Nat.shiftLeft_lt hP.lt_two_pow
  refine lt_two_pow_of_testBit_eq_false (Nat.xor_lt_two_pow hA hPk) ?_
  simp [Nat.testBit_shiftLeft, htop, hP.testBit_self]

/-! ### The scan of the bitwise engine (R120, R121, R122) -/

/-- Each position scanned takes one bit off the register. -/
theorem divideFrom_lt {P d n A : Nat} (hP : HasDegree P d) (hA : A < 2 ^ (d + n)) : divideFrom P d n A < 2 ^ d := by
  induction n generalizing A with
  | zero => exact hA
  | succ n ih =>
    refine ih ?_
    split
    · next htop => exact hP.xor_shiftLeft_lt hA htop
    · next htop => exact lt_two_pow_of_testBit_eq_false hA (Bool.not_eq_true _ ▸ htop)

/-- Positions above the highest bit of the register change nothing. -/
theorem divideFrom_add_of_lt {P d n A : Nat} (k : Nat) (hA : A < 2 ^ (d + n)) :
    divideFrom P d (n + k) A = divideFrom P d n A := by
  induction k with
  | zero => rfl
  | succ k ih =>
    have hbit : A.testBit (d + (n + k)) = false :=
      Nat.testBit_lt_two_pow (hA.trans_le (Nat.pow_le_pow_right two_pos (by omega)))
    rw [← ih, ← Nat.add_assoc, divideFrom, hbit, if_neg Bool.false_ne_true]

/-- The scan is linear over XOR, whatever `P` is. -/
theorem divideFrom_xor (P d n A B : Nat) : divideFrom P d n (A ^^^ B) = divideFrom P d n A ^^^ divideFrom P d n B := by
  induction n generalizing A B with
  | zero => rfl
  | succ n ih =>
    rw [divideFrom, divideFrom, divideFrom, ← ih, Nat.testBit_xor]
    congr 1
    cases A.testBit (d + n) <;> cases B.testBit (d + n) <;>
      simp [Nat.xor_comm, Nat.xor_left_comm]

/-- The first position scanned of a register shifted by the positions that follow it. -/
theorem divideFrom_succ_shiftLeft (P d n A : Nat) :
    divideFrom P d (n + 1) (A <<< n) = divideFrom P d n (divideFrom P d 1 A <<< n) := by
  have hbit : (A <<< n).testBit (d + n) = A.testBit d := by simp [Nat.testBit_shiftLeft]
  cases h : A.testBit d <;> simp [divideFrom, hbit, h, Nat.shiftLeft_xor_distrib]

/-- `gfMul` started from a value other than 0 has that value, shifted by the coefficients still to come, XORed in. -/
theorem foldl_gfMul (q : List Bool) (p acc : Nat) :
    q.foldl (fun acc b => (acc <<< 1) ^^^ (if b then p else 0)) acc = (acc <<< q.length) ^^^ gfMul q p := by
  induction q generalizing acc with
  | nil => simp [gfMul]
  | cons b q ih =>
    rw [gfMul, List.foldl_cons, List.foldl_cons, ih, ih, List.length_cons, Nat.shiftLeft_xor_distrib,
      ← Nat.shiftLeft_add, Nat.add_comm 1]
    simp [Nat.xor_assoc]

theorem gfMul_cons (b : Bool) (q : List Bool) (p : Nat) :
    gfMul (b :: q) p = ((if b then p else 0) <<< q.length) ^^^ gfMul q p := by
  rw [gfMul, List.foldl_cons, foldl_gfMul, Nat.zero_shiftLeft, Nat.zero_xor]

/-- What a scan XORs in is a multiple of `P`, by the bits it found set. -/
theorem exists_gfMul_eq_xor_divideFrom (P d n A : Nat) :
    ∃ q : List Bool, q.length = n ∧ A ^^^ divideFrom P d n A = gfMul q P := by
  induction n generalizing A with
  | zero => exact ⟨[], rfl, Nat.xor_self A⟩
  | succ n ih =>
    obtain ⟨q, hlen, hq⟩ := ih (if A.testBit (d + n) then A ^^^ (P <<< n) else A)
    refine ⟨A.testBit (d + n) :: q, by simp [hlen], ?_⟩
    rw [gfMul_cons, ← hq, hlen, divideFrom]
    cases A.testBit (d + n) <;> simp [Nat.xor_assoc, Nat.xor_left_comm, Nat.shiftLeft_eq]

/-- What a scan leaves of `A` is the remainder of `A` (R14). -/
theorem divideFrom_isRemainder {P d n A : Nat} (hP : HasDegree P d) (hA : A < 2 ^ (d + n)) :
    IsRemainder A P d (divideFrom P d n A) :=
  have ⟨q, _, hq⟩ := exists_gfMul_eq_xor_divideFrom P d n A
  ⟨divideFrom_lt hP hA, q, hq⟩

theorem bwEnc_eq_divideFrom {P d : Nat} (hP : HasDegree P d) (m : List Bool) :
    bwEnc m P d = divideFrom P d m.length (val m <<< d) :=
  and_mask_of_lt (divideFrom_lt hP (Nat.add_comm _ d ▸ Nat.shiftLeft_lt (val_lt m)))

/-! ### The table's entries (42_table_generator.md R140, R141) -/

/-- A register step fed a zero bit is one position of the scan. -/
theorem step1_false {P d r : Nat} (hP : HasDegree P d) (hd : 1 ≤ d) (hr : r < 2 ^ d) :
    step1 P d r false = divideFrom P d 1 (r <<< 1) := by
  have hlt : r <<< 1 < 2 ^ (d + 1) := Nat.shiftLeft_lt hr
  have hbit : (r <<< 1).testBit d = r.testBit (d - 1) := by simp [Nat.testBit_shiftLeft, hd]
  rw [step1, divideFrom, divideFrom, Bool.xor_false, Nat.add_zero, Nat.shiftLeft_zero, hbit]
  split
  · next htop =>
    rw [← Nat.and_xor_distrib_right]
    exact and_mask_of_lt (hP.xor_shiftLeft_lt (k := 0) hlt (hbit.trans htop))
  · next htop => exact and_mask_of_lt (lt_two_pow_of_testBit_eq_false hlt (by simpa [hbit] using htop))

/-- Register steps fed zero bits divide the register with as many zeros after it. -/
theorem foldl_step1_zeros {P d r : Nat} (hP : HasDegree P d) (hd : 1 ≤ d) (hr : r < 2 ^ d) (n : Nat) :
    (List.replicate n false).foldl (step1 P d) r = divideFrom P d n (r <<< n) := by
  induction n generalizing r with
  | zero => rfl
  | succ n ih =>
    have hlt : divideFrom P d 1 (r <<< 1) < 2 ^ d := divideFrom_lt hP (Nat.shiftLeft_lt hr)
    calc (List.replicate (n + 1) false).foldl (step1 P d) r
      _ = (List.replicate n false).foldl (step1 P d) (divideFrom P d 1 (r <<< 1)) := by
        rw [List.replicate_succ, List.foldl_cons, step1_false hP hd hr]
      _ = divideFrom P d n (divideFrom P d 1 (r <<< 1) <<< n) := ih hlt
      _ = divideFrom P d (n + 1) (r <<< (n + 1)) := by
        rw [← divideFrom_succ_shiftLeft, ← Nat.shiftLeft_add, Nat.add_comm 1 n]

section
variable {P W : Nat} (hd : 8 ≤ W - 1) (hP : HasDegree P (W - 1))
include hd hP

/-- An entry is what a scan over 8 positions leaves of the index shifted by the degree. -/
theorem tableEntry_eq_divideFrom {i : Nat} (hi : i < 256) :
    tableEntry P W i = divideFrom P (W - 1) 8 (i <<< (W - 1)) := by
  have hlt : i <<< (W - 1 - 8) < 2 ^ (W - 1) := by
    simpa [Nat.add_sub_cancel' hd] using Nat.shiftLeft_lt (n := 8) (m := W - 1 - 8) hi
  rw [tableEntry, foldl_step1_zeros hP (by omega) hlt, ← Nat.shiftLeft_add, Nat.sub_add_cancel hd]

theorem tableEntry_isRemainder {i : Nat} (hi : i < 256) :
    IsRemainder (i <<< (W - 1)) P (W - 1) (tableEntry P W i) := by
  rw [tableEntry_eq_divideFrom hd hP hi]
  exact divideFrom_isRemainder hP (Nat.add_comm 8 _ ▸ Nat.shiftLeft_lt (n := 8) hi)

theorem tableEntry_lt {i : Nat} (hi : i < 256) : tableEntry P W i < 2 ^ (W - 1) :=
  (tableEntry_isRemainder hd hP hi).1

theorem tableEntry_eq_bwEnc {i : Nat} (hi : i < 256) : tableEntry P W i = bwEnc (bitsN 8 i) P (W - 1) := by
  rw [tableEntry_eq_divideFrom hd hP hi, bwEnc_eq_divideFrom hP, bitsN_length, val_bitsN_of_lt hi]

theorem tableEntry_xor {i j : Nat} (hi : i < 256) (hj : j < 256) :
    tableEntry P W (i ^^^ j) = tableEntry P W i ^^^ tableEntry P W j := by
  have hij : i ^^^ j < 256 := Nat.xor_lt_two_pow (n := 8) hi hj
  rw [tableEntry_eq_divideFrom hd hP hi, tableEntry_eq_divideFrom hd hP hj, tableEntry_eq_divideFrom hd hP hij,
    Nat.shiftLeft_xor_distrib, divideFrom_xor]

theorem tableEntry_zero : tableEntry P W 0 = 0 := by
  simpa using tableEntry_xor hd hP (i := 0) (j := 0) (by decide) (by decide)

/-- Of the one bit at the degree, the scan cancels the leading bit of `P` and leaves its low bits. -/
theorem tableEntry_one : tableEntry P W 1 = P &&& mask (W - 1) := by
  have hbit : (1 <<< (W - 1)).testBit (W - 1) = true := by simp
  have hlt : 1 <<< (W - 1) < 2 ^ (W - 1 + 1) := by simp [Nat.shiftLeft_eq, pow_succ]
  have hred : 1 <<< (W - 1) ^^^ P < 2 ^ (W - 1) := hP.xor_shiftLeft_lt (k := 0) hlt hbit
  calc tableEntry P W 1
    _ = divideFrom P (W - 1) (1 + 7) (1 <<< (W - 1)) := tableEntry_eq_divideFrom hd hP (by decide)
    _ = divideFrom P (W - 1) 1 (1 <<< (W - 1)) := divideFrom_add_of_lt 7 hlt
    _ = 1 <<< (W - 1) ^^^ P := by simp [divideFrom]
    _ = (1 <<< (W - 1) ^^^ P) &&& mask (W - 1) := (and_mask_of_lt hred).symm
    _ = P &&& mask (W - 1) := by rw [Nat.and_xor_distrib_right]; simp [and_mask, Nat.shiftLeft_eq]

/-- A stored entry has room for every bit of the entry. -/
theorem entry_buildTable_toNat (hmax : W - 1 ≤ 127) (k : BitVec 8) :
    (entry (buildTable P W) k).toNat = tableEntry P W k.toNat := by
  rw [entry_buildTable, BitVec.toNat_ofNat]
  exact Nat.mod_eq_of_lt ((tableEntry_lt hd hP k.isLt).trans_le (Nat.pow_le_pow_right two_pos hmax))

end

/-- Settles O36: an entry is a scan of the bitwise engine over 8 positions, and the scan is linear. -/
theorem tableEntryFacts : Obligations.TableEntryFacts := by
  intro P W i j hd hmax hP hi hj
  refine ⟨tableEntry_eq_bwEnc hd hP hi, tableEntry_isRemainder hd hP hi, tableEntry_zero hd hP, tableEntry_one hd hP,
    tableEntry_xor hd hP hi hj, tableEntry_lt hd hP hi, ?_⟩
  rw [entry_buildTable_toNat hd hP hmax, BitVec.toNat_ofNat, Nat.mod_eq_of_lt hi]

/-! ### The cache (R142, R143, R148) -/

/-- `t` caches the table of the polynomial of `s`: all 256 entries, the key, and TBL_VALID. -/
def CachesTableOf (s t : State) : Prop :=
  (∀ k : BitVec 8, entry t.tbl k = BitVec.ofNat 127 (tableEntry s.polyBits.toNat s.polyWidth.toNat k.toNat)) ∧
  t.tblKeyBits = s.polyBits ∧ t.tblKeyWidth = s.polyWidth ∧ t.tblValid = true

theorem tableInUse_of_hit {s : State} (hit : s.CacheHit) : s.tableInUse = s.tbl := by
  simp only [State.tableInUse, if_pos hit]

theorem tableInUse_of_miss {s : State} (miss : ¬ s.CacheHit) :
    s.tableInUse = buildTable s.polyBits.toNat s.polyWidth.toNat := by
  simp only [State.tableInUse, if_neg miss]

theorem withTableInUse_cachesTableOf {s : State} (miss : ¬ s.CacheHit) : CachesTableOf s s.withTableInUse := by
  refine ⟨fun k => ?_, rfl, rfl, rfl⟩
  rw [show s.withTableInUse.tbl = s.tableInUse from rfl, tableInUse_of_miss miss, entry_buildTable]

/-- A command's table use leaves the cache alone, or is a whole build for another key. -/
theorem TableUse.sameCache_or_build {i : Instr} {s u : State} (use : TableUse i s u) :
    s.SameCache u ∨ (i.usesTable = true ∧ 8 ≤ s.degree ∧ ¬ s.CacheHit ∧ CachesTableOf s u) := by
  rcases use with rfl | ⟨table, large, rfl⟩
  · exact .inl ⟨rfl, rfl, rfl, rfl⟩
  · by_cases hit : s.CacheHit
    · rw [withTableInUse_of_hit hit]; exact .inl ⟨rfl, rfl, rfl, rfl⟩
    · exact .inr ⟨table, large, hit, withTableInUse_cachesTableOf hit⟩

/-- From `s` to `t`, `i` has kept the cache, or has ended with OK after a whole build for another key (R143, R148). -/
def CacheKeptOrBuilt (i : Instr) (s t : State) : Prop :=
  s.SameCache t ∨
  (i.usesTable = true ∧ s.polyValid = true ∧ 8 ≤ s.degree ∧ ¬ s.CacheHit ∧
    (∃ w ws, t.resp = s.resp ++ w :: ws ∧ statusOf w = 0) ∧ CachesTableOf s t)

/-- A command that ends with OK after its table use. -/
theorem TableUse.cacheKeptOrBuilt {i : Instr} {s u : State} (use : TableUse i s u) (valid : s.polyValid = true)
    (n : Nat) {r : Reply} (ok : r.status = .ok) (ws : List Word) (cs : List Octet) :
    CacheKeptOrBuilt i s (u.after n (r.word :: ws) cs) := by
  have hresp : (u.after n (r.word :: ws) cs).resp = s.resp ++ r.word :: ws := by rw [State.after_resp, use.resp_eq]
  have hok : statusOf r.word = 0 := by rw [statusOf_word, ok, ok_code_toNat]
  exact use.sameCache_or_build.imp id fun ⟨table, large, miss, built⟩ =>
    ⟨table, valid, large, miss, ⟨_, ws, hresp, hok⟩, built⟩

theorem Effect.cacheKeptOrBuilt {i : Instr} {s t : State} (h : Effect i s t) : CacheKeptOrBuilt i s t := by
  cases h with
  | waits => exact .inl ⟨rfl, rfl, rfl, rfl⟩
  | fails => exact .inl ⟨rfl, rfl, rfl, rfl⟩
  | validates => exact .inl ⟨rfl, rfl, rfl, rfl⟩
  | encodes _ _ _ valid use => exact use.cacheKeptOrBuilt valid _ rfl _ _
  | decodes _ _ _ valid use => exact use.cacheKeptOrBuilt valid _ rfl _ _
  | reads k valid large =>
    have use : TableUse (.tread k) s s.withTableInUse := .inr ⟨rfl, large, rfl⟩
    exact use.cacheKeptOrBuilt valid _ rfl _ _
  | reports => exact .inl ⟨rfl, rfl, rfl, rfl⟩

/-- Settles O40: by cases on what a command can do (`Effect`). -/
theorem onlyBuildsWriteCache : Obligations.OnlyBuildsWriteCache := fun _ _ _ h => (exec_effect h).cacheKeptOrBuilt

/-! ### TREAD (R145, R146, R147) -/

/-- The table a command uses is that of the active polynomial, cached or built. -/
theorem entry_tableInUse_toNat {s : State} (poly : s.PolyInv) (cache : s.CacheInv) (valid : s.polyValid = true)
    (large : 8 ≤ s.degree) (k : BitVec 8) :
    (entry s.tableInUse k).toNat = tableEntry s.polyBits.toNat s.polyWidth.toNat k.toNat := by
  by_cases hit : s.CacheHit
  · obtain ⟨hv, hbits, hwidth⟩ := hit
    obtain ⟨-, -, -, entries⟩ := cache hv
    rw [tableInUse_of_hit ⟨hv, hbits, hwidth⟩, entries, hbits, hwidth]
  · obtain ⟨-, hmax, hP⟩ := poly.2 valid
    rw [tableInUse_of_miss hit, entry_buildTable_toNat large hP (by omega)]

/-- The words TREAD sends, from the polynomial group and the index alone. -/
def treadWords (bits : BitVec 128) (width : BitVec 8) (valid : Bool) (index : BitVec 8) : List Word :=
  if valid = false then [Reply.word { status := .noPolynomial }]
  else if width.toNat - 1 < 8 then [Reply.word { status := .noTable }]
  else Reply.word { status := .ok } :: payload (BitVec.ofNat 128 (tableEntry bits.toNat width.toNat index.toNat))

/-- Under the invariants TREAD's response does not depend on the cache. -/
theorem exec_tread_sends {s : State} (poly : s.PolyInv) (cache : s.CacheInv) (index : BitVec 8) :
    ∃ t, exec (.tread index) s = .next t ∧
      t.resp = s.resp ++ treadWords s.polyBits s.polyWidth s.polyValid index := by
  rcases execTread_cases index s with ⟨hv, h⟩ | ⟨hv, small, h⟩ | ⟨hv, large, h⟩
  · exact ⟨_, h, by simp [treadWords, hv]⟩
  · have hw : s.polyWidth.toNat - 1 < 8 := small
    exact ⟨_, h, by simp [treadWords, hv, hw]⟩
  · have hw : ¬ s.polyWidth.toNat - 1 < 8 := Nat.not_lt.2 large
    have hentry : (entry s.tableInUse index).zeroExtend 128 =
        BitVec.ofNat 128 (tableEntry s.polyBits.toNat s.polyWidth.toNat index.toNat) := by
      rw [← entry_tableInUse_toNat poly cache hv large, BitVec.ofNat_toNat]
    refine ⟨_, h, ?_⟩
    rw [State.after_resp, hentry, treadWords, hv, if_neg (by decide), if_neg hw]
    rfl

/-- Settles O41: the words are a function of the polynomial group and the index. -/
theorem treadIsIdempotent : Obligations.TreadIsIdempotent := by
  intro index s u ⟨polyS, cacheS, _⟩ ⟨polyU, cacheU, _⟩ ⟨hbits, hwidth, hvalid⟩
  obtain ⟨s', hs, sent⟩ := exec_tread_sends polyS cacheS index
  obtain ⟨u', hu, sent'⟩ := exec_tread_sends polyU cacheU index
  rw [hbits, hwidth, hvalid] at sent'
  exact ⟨s', u', _, hs, hu, sent, sent'⟩

end Sys2Proof.Machine

/-! Proofs of the family 44_codec.md: the input checks of ENCODE and DECODE, the equivalence of their engines, the round trip,
and what a codec command may write. -/

namespace Sys2Proof.Machine

/-! ### ENCODE and DECODE by their T bit (44_codec.md R180) -/

@[simp] theorem encodeWith_dataLen (t : Bool) (len : Nat) : (encodeWith t len).dataLen = len := by cases t <;> rfl

@[simp] theorem decodeWith_dataLen (t : Bool) (len : Nat) : (decodeWith t len).dataLen = len := by cases t <;> rfl

@[simp] theorem encodeWith_usesTable (t : Bool) (len : Nat) : (encodeWith t len).usesTable = t := by cases t <;> rfl

@[simp] theorem decodeWith_usesTable (t : Bool) (len : Nat) : (decodeWith t len).usesTable = t := by cases t <;> rfl

/-- The engine that the T bit of an ENCODE selects. -/
def encodeEngine (t : Bool) : List Bool → State → Nat × State := if t then tblEncodeEngine else bwEncodeEngine

/-- The engine that the T bit of a DECODE selects. -/
def decodeEngine (t : Bool) : List Bool → State → Bool × State := if t then tblDecodeEngine else bwDecodeEngine

theorem exec_encodeWith_of_ready {t : Bool} {len : Nat} {s : State} (ready : len ≤ s.din.length) :
    exec (encodeWith t len) s = encodeBody (encodeEngine t) (s.din.take len) (s.takeInput len) := by
  cases t with
  | false => exact receive_of_ready (i := .encodeBw len) _ ready
  | true => exact receive_of_ready (i := .encodeTbl len) _ ready

theorem exec_decodeWith_of_ready {t : Bool} {len : Nat} {s : State} (ready : len ≤ s.din.length) :
    exec (decodeWith t len) s = decodeBody (decodeEngine t) (s.din.take len) (s.takeInput len) := by
  cases t with
  | false => exact receive_of_ready (i := .decodeBw len) _ ready
  | true => exact receive_of_ready (i := .decodeTbl len) _ ready

/-- What the engine of ENCODE leaves of the state after the input is the table use of the command. -/
theorem encodeEngine_tableUse (t : Bool) (len : Nat) (m : List Bool) (s : State) :
    ∃ u, TableUse (encodeWith t len) s u ∧ (encodeEngine t m (s.takeInput len)).2 = u.takeInput len := by
  cases t with
  | false => exact ⟨s, .inl rfl, rfl⟩
  | true =>
    rcases tblEncodeEngine_state m (s.takeInput len) with h | ⟨large, h⟩
    · exact ⟨s, .inl rfl, h⟩
    · exact ⟨s.withTableInUse, .inr ⟨rfl, large, rfl⟩, h⟩

/-- What the engine of DECODE leaves of the state after the input is the table use of the command. -/
theorem decodeEngine_tableUse (t : Bool) (len : Nat) (c : List Bool) (s : State) :
    ∃ u, TableUse (decodeWith t len) s u ∧ (decodeEngine t c (s.takeInput len)).2 = u.takeInput len := by
  cases t with
  | false => exact ⟨s, .inl rfl, rfl⟩
  | true =>
    rcases tblDecodeEngine_state c (s.takeInput len) with h | ⟨large, h⟩
    · exact ⟨s, .inl rfl, h⟩
    · exact ⟨s.withTableInUse, .inr ⟨rfl, large, rfl⟩, h⟩

/-! ### The input checks (R181, R182) -/

theorem exec_encodeWith_of_error {t : Bool} {len : Nat} {s : State} {st : Status} (ready : len ≤ s.din.length)
    (hc : encodeChecks s (s.din.take len) = some st) :
    exec (encodeWith t len) s = .next (s.after len [Reply.word { status := st }] []) := by
  have hc' : encodeChecks (s.takeInput len) (s.din.take len) = some st := hc
  simp only [exec_encodeWith_of_ready ready, encodeBody, hc', raise_takeInput]

theorem exec_decodeWith_of_error {t : Bool} {len : Nat} {s : State} {st : Status} (ready : len ≤ s.din.length)
    (hc : decodeChecks s (s.din.take len) = some st) :
    exec (decodeWith t len) s = .next (s.after len [Reply.word { status := st }] []) := by
  have hc' : decodeChecks (s.takeInput len) (s.din.take len) = some st := hc
  simp only [exec_decodeWith_of_ready ready, decodeBody, hc', raise_takeInput]

theorem exec_encodeWith_of_ok {t : Bool} {len : Nat} {s : State} (ready : len ≤ s.din.length)
    (hc : encodeChecks s (s.din.take len) = none) :
    ∃ u, TableUse (encodeWith t len) s u ∧
      exec (encodeWith t len) s = .next (u.after len [Reply.word { status := .ok }]
        (charsOf (codeword (bitsOf (s.din.take len)) s.degree
          (encodeEngine t (bitsOf (s.din.take len)) (s.takeInput len)).1))) := by
  have hc' : encodeChecks (s.takeInput len) (s.din.take len) = none := hc
  obtain ⟨u, use, hu⟩ := encodeEngine_tableUse t len (bitsOf (s.din.take len)) s
  refine ⟨u, use, ?_⟩
  simp only [exec_encodeWith_of_ready ready, encodeBody, hc', hu, State.takeInput_respond, State.takeInput_degree]

theorem exec_decodeWith_of_ok {t : Bool} {len : Nat} {s : State} (ready : len ≤ s.din.length)
    (hc : decodeChecks s (s.din.take len) = none) :
    ∃ u, TableUse (decodeWith t len) s u ∧
      exec (decodeWith t len) s = .next (u.after len [Reply.word { status := .ok, verdict :=
        (decodeEngine t (bitsOf (s.din.take len)) (s.takeInput len)).1 }] []) := by
  have hc' : decodeChecks (s.takeInput len) (s.din.take len) = none := hc
  obtain ⟨u, use, hu⟩ := decodeEngine_tableUse t len (bitsOf (s.din.take len)) s
  refine ⟨u, use, ?_⟩
  simp only [exec_decodeWith_of_ready ready, decodeBody, hc', hu, State.takeInput_respond]

theorem decodeChecks_of_short {s : State} {cs : List Octet} (hv : s.polyValid = true) (hne : cs ≠ [])
    (hbin : AllBinary cs) (hshort : cs.length < s.degree) : decodeChecks s cs = some .tooShort := by
  have hany : ¬ cs.any (fun c => !isBinary c) = true := (any_not_binary_iff cs).not.2 (not_not_intro hbin)
  rw [decodeChecks, if_neg (by simp [hv]), if_neg (List.length_eq_zero_iff.not.2 hne), if_neg hany, if_pos hshort]

theorem take_ne_nil_of_pos {len : Nat} {cs : List Octet} (hpos : 0 < len) (ready : len ≤ cs.length) :
    cs.take len ≠ [] := by
  rw [← List.length_pos_iff, List.length_take_of_le ready]
  exact hpos

/-- Settles O31: each error is the check that fails, and an input that passes is encoded. -/
theorem encodeChecksInOrder : Obligations.EncodeChecksInOrder := by
  rintro t len s _ ready rfl
  have fails (st : Status) := exec_encodeWith_of_error (t := t) (st := st) ready
  refine ⟨fun hv => fails .noPolynomial ?_, fun hv hlen => fails .emptyInput ?_,
    fun hv _ hbin => fails .nonBinaryCharacter (encodeChecks_of_not_allBinary hv hbin), fun hv hpos hbin => ?_⟩
  · simp [encodeChecks, hv]
  · simp [encodeChecks, hv, hlen]
  · have hc := (encodeChecks_none_iff s _).2 ⟨hv, take_ne_nil_of_pos hpos ready, hbin⟩
    obtain ⟨u, use, h⟩ := exec_encodeWith_of_ok (t := t) ready hc
    exact ⟨_, h, by rw [State.after_resp, use.resp_eq]; rfl⟩

/-- Settles O34: each error is the check that fails, and a codeword that passes gets a verdict. -/
theorem decodeChecksInOrder : Obligations.DecodeChecksInOrder := by
  rintro t len s _ ready rfl
  have hlength : (s.din.take len).length = len := List.length_take_of_le ready
  have fails (st : Status) := exec_decodeWith_of_error (t := t) (st := st) ready
  refine ⟨fun hv => fails .noPolynomial ?_, fun hv hlen => fails .emptyInput ?_,
    fun hv _ hbin => fails .nonBinaryCharacter (decodeChecks_of_not_allBinary hv hbin),
    fun hv hpos hbin hshort => fails .tooShort ?_, fun hv hpos hbin hlong => ?_⟩
  · simp [decodeChecks, hv]
  · simp [decodeChecks, hv, hlen]
  · exact decodeChecks_of_short hv (take_ne_nil_of_pos hpos ready) hbin (hlength.trans_lt hshort)
  · have hc := (decodeChecks_none_iff s _).2 ⟨hv, take_ne_nil_of_pos hpos ready, hbin, hlong.trans_eq hlength.symm⟩
    obtain ⟨u, use, h⟩ := exec_decodeWith_of_ok (t := t) ready hc
    refine ⟨_, _, h, by rw [State.after_resp, use.resp_eq], ?_⟩
    cases (decodeEngine t (bitsOf (s.din.take len)) (s.takeInput len)).1 with
    | false => exact .inl rfl
    | true => exact .inr rfl

/-! ### A codec command that fails (R187) -/

/-- Settles O56: of what a command can do (`Effect`), only an error completion sends a status other than OK. -/
theorem codecErrorAtomicity : Obligations.CodecErrorAtomicity := by
  intro i s t w ws codec ready h sent failed
  have ok_sent {u : State} {r : Reply} (use : TableUse i s u) (hr : r.status = .ok)
      (h : u.resp ++ [r.word] = s.resp ++ w :: ws) : False := by
    rw [use.resp_eq, List.append_right_inj] at h
    obtain ⟨rfl, -⟩ := List.cons.inj h
    exact failed (by rw [statusOf_word, hr, ok_code_toNat])
  cases exec_effect h with
  | waits short => exact absurd ready short
  | fails st _ _ _ =>
    obtain ⟨rfl, -⟩ := List.cons.inj (List.append_cancel_left sent)
    rfl
  | encodes _ _ _ _ use => exact (ok_sent use rfl sent).elim
  | decodes _ _ _ _ use => exact (ok_sent use rfl sent).elim
  | validates | reads | reports => simp [Instr.isEncode, Instr.isDecode] at codec

/-! ### The table engine computes the remainder of the bitwise engine (43_table_engine.md R160 to R165) -/

/-- Adding below the low bits of a shifted value is XOR. -/
theorem shiftLeft_add_eq_xor (a : Nat) {b n : Nat} (hb : b < 2 ^ n) : a <<< n + b = a <<< n ^^^ b := by
  refine Nat.eq_of_testBit_eq fun j => ?_
  rw [Nat.shiftLeft_eq, Nat.mul_comm, Nat.testBit_two_pow_mul_add a hb, Nat.testBit_xor, Nat.testBit_two_pow_mul]
  by_cases hj : j < n
  · simp [hj, Nat.not_le.2 hj]
  · have hbit : b.testBit j = false :=
      Nat.testBit_lt_two_pow (hb.trans_le (Nat.pow_le_pow_right two_pos (Nat.le_of_not_lt hj)))
    simp [hj, hbit, Nat.le_of_not_lt hj]

theorem val_append_eq_xor (s t : List Bool) : val (s ++ t) = (val s <<< t.length) ^^^ val t := by
  rw [val_append, ← shiftLeft_add_eq_xor _ (val_lt t), Nat.shiftLeft_eq]

theorem val_singleton (b : Bool) : val [b] = b.toNat := by cases b <;> rfl

/-- A value that fits the register is left alone by the scan. -/
theorem divideFrom_of_lt {P d A : Nat} (n : Nat) (hA : A < 2 ^ d) : divideFrom P d n A = A := by
  simpa [divideFrom] using divideFrom_add_of_lt (P := P) (n := 0) n hA

theorem step1_true (P d r : Nat) : step1 P d r true = step1 P d r false ^^^ (P &&& mask d) := by
  cases h : r.testBit (d - 1) <;> simp [step1, h]

/-- Of the one bit at the degree, one position of the scan leaves the low bits of `P`. -/
theorem divideFrom_one_shiftLeft {P d : Nat} (hP : HasDegree P d) (hd : 1 ≤ d) :
    divideFrom P d 1 (1 <<< d) = P &&& mask d := by
  have hr : 1 <<< (d - 1) < 2 ^ d := by rw [Nat.one_shiftLeft]; exact Nat.pow_lt_pow_right one_lt_two (by omega)
  have hshift : 1 <<< (d - 1) <<< 1 = 1 <<< d := by rw [← Nat.shiftLeft_add, Nat.sub_add_cancel hd]
  rw [← hshift, ← step1_false hP hd hr, step1, hshift]
  simp [and_mask, Nat.one_shiftLeft]

/-- A register step fed a bit is one position of the scan, the bit entering at the degree. -/
theorem step1_eq_divideFrom {P d r : Nat} (hP : HasDegree P d) (hd : 1 ≤ d) (hr : r < 2 ^ d) (b : Bool) :
    step1 P d r b = divideFrom P d 1 ((r <<< 1) ^^^ (b.toNat <<< d)) := by
  cases b with
  | false => simpa using step1_false hP hd hr
  | true => rw [step1_true, step1_false hP hd hr, ← divideFrom_one_shiftLeft hP hd, ← divideFrom_xor, Bool.toNat_true]

theorem step1_lt {P d r : Nat} (hP : HasDegree P d) (hd : 1 ≤ d) (hr : r < 2 ^ d) (b : Bool) :
    step1 P d r b < 2 ^ d := by
  have hbit : b.toNat <<< d < 2 ^ (1 + d) := Nat.shiftLeft_lt (by cases b <;> decide)
  rw [step1_eq_divideFrom hP hd hr]
  exact divideFrom_lt hP (Nat.xor_lt_two_pow (Nat.shiftLeft_lt hr) (Nat.add_comm 1 d ▸ hbit))

theorem foldl_step1_lt {P d r : Nat} (hP : HasDegree P d) (hd : 1 ≤ d) (hr : r < 2 ^ d) (s : List Bool) :
    s.foldl (step1 P d) r < 2 ^ d := by
  induction s generalizing r with
  | nil => exact hr
  | cons b s ih => exact ih (step1_lt hP hd hr b)

/-- Register steps fed the bits of `s` divide the register with `s` after it, `d` places up. -/
theorem foldl_step1_eq_divideFrom {P d r : Nat} (hP : HasDegree P d) (hd : 1 ≤ d) (hr : r < 2 ^ d) (s : List Bool) :
    s.foldl (step1 P d) r = divideFrom P d s.length ((r <<< s.length) ^^^ (val s <<< d)) := by
  induction s generalizing r with
  | nil => simp [divideFrom]
  | cons b s ih =>
    have htail : val s <<< d < 2 ^ (d + s.length) := Nat.add_comm _ d ▸ Nat.shiftLeft_lt (val_lt s)
    have hsplit : (r <<< (s.length + 1)) ^^^ (val (b :: s) <<< d) =
        (((r <<< 1) ^^^ (b.toNat <<< d)) <<< s.length) ^^^ (val s <<< d) := by
      rw [← List.singleton_append, val_append_eq_xor, val_singleton]
      simp only [Nat.shiftLeft_xor_distrib, ← Nat.shiftLeft_add, Nat.xor_assoc, Nat.add_comm]
    calc (b :: s).foldl (step1 P d) r
      _ = divideFrom P d s.length ((step1 P d r b <<< s.length) ^^^ (val s <<< d)) := ih (step1_lt hP hd hr b)
      _ = divideFrom P d (s.length + 1) (((r <<< 1) ^^^ (b.toNat <<< d)) <<< s.length) ^^^
          divideFrom P d (s.length + 1) (val s <<< d) := by
        rw [divideFrom_xor, step1_eq_divideFrom hP hd hr, ← divideFrom_succ_shiftLeft, divideFrom_add_of_lt 1 htail]
      _ = divideFrom P d (s.length + 1) ((r <<< (s.length + 1)) ^^^ (val (b :: s) <<< d)) := by
        rw [← divideFrom_xor, hsplit]

/-- The bits that leave the register of degree `d` when a byte is shifted in, and those that stay. -/
theorem shiftLeft_byte_eq_xor {d : Nat} (hd : 8 ≤ d) (r : Nat) :
    r <<< 8 = ((r >>> (d - 8)) <<< d) ^^^ ((r <<< 8) &&& mask d) := by
  have htop : (r <<< 8) >>> d = r >>> (d - 8) := by
    obtain ⟨k, rfl⟩ := Nat.exists_eq_add_of_le hd
    rw [Nat.shiftRight_add, Nat.shiftLeft_shiftRight, Nat.add_sub_cancel_left]
  rw [← htop, ← shiftLeft_add_eq_xor _ (and_mask_lt _ d), and_mask, Nat.shiftLeft_eq _ d, Nat.shiftRight_eq_div_pow,
    Nat.div_add_mod']

section
variable {P W : Nat} {t : Table} (hd : 8 ≤ W - 1) (hP : HasDegree P (W - 1))
  (ht : ∀ k : BitVec 8, (entry t k).toNat = tableEntry P W k.toNat)
include hd hP ht

/-- A byte step is eight register steps fed the bits of the byte (R165 (b)), with any table of `P`. -/
theorem stepB_eq_foldl_step1 {r : Nat} (hr : r < 2 ^ (W - 1)) {byte : List Bool} (hbyte : byte.length = 8) :
    stepB (W - 1) t r (val byte) = byte.foldl (step1 P (W - 1)) r := by
  have htop : r >>> (W - 1 - 8) < 256 := by
    rw [Nat.shiftRight_eq_div_pow]
    exact Nat.div_lt_of_lt_mul (by rwa [show 256 = 2 ^ 8 from rfl, ← pow_add, Nat.sub_add_cancel hd])
  have hi : r >>> (W - 1 - 8) ^^^ val byte < 256 := Nat.xor_lt_two_pow (n := 8) htop (hbyte ▸ val_lt byte)
  have hsplit : (r <<< 8) ^^^ (val byte <<< (W - 1)) =
      ((r <<< 8) &&& mask (W - 1)) ^^^ ((r >>> (W - 1 - 8) ^^^ val byte) <<< (W - 1)) := by
    rw [Nat.shiftLeft_xor_distrib, Nat.xor_left_comm, ← Nat.xor_assoc, ← shiftLeft_byte_eq_xor hd r]
  rw [stepB, ht, BitVec.toNat_ofNat, Nat.mod_eq_of_lt hi, tableEntry_eq_divideFrom hd hP hi,
    foldl_step1_eq_divideFrom hP (by omega) hr, hbyte, hsplit, divideFrom_xor,
    divideFrom_of_lt 8 (and_mask_lt (r <<< 8) (W - 1))]

/-- The register over `n` full bytes and what is left is the register over all the bits. -/
theorem tblRegFrom_eq_foldl_step1 {n r : Nat} {s : List Bool} (hr : r < 2 ^ (W - 1)) (hn : 8 * n ≤ s.length) :
    tblRegFrom P (W - 1) t n r s = s.foldl (step1 P (W - 1)) r := by
  induction n generalizing r s with
  | zero => rfl
  | succ n ih =>
    have hbyte : (s.take 8).length = 8 := List.length_take_of_le (by omega)
    have hrest : 8 * n ≤ (s.drop 8).length := by rw [List.length_drop]; omega
    rw [tblRegFrom, stepB_eq_foldl_step1 hd hP ht hr hbyte, ih (foldl_step1_lt hP (by omega) hr _) hrest,
      ← List.foldl_append, List.take_append_drop]

/-- The table register is the remainder of the bitwise engine (R165 (c)), with any table of `P`. -/
theorem tblReg_eq_bwEnc (s : List Bool) : tblReg P (W - 1) t s = bwEnc s P (W - 1) := by
  have hzero : 0 < 2 ^ (W - 1) := Nat.two_pow_pos _
  rw [tblReg, tblRegFrom_eq_foldl_step1 hd hP ht hzero (Nat.mul_div_le s.length 8),
    foldl_step1_eq_divideFrom hP (by omega) hzero, Nat.zero_shiftLeft, Nat.zero_xor, bwEnc_eq_divideFrom hP]

end

/-- The remainder of a message with check bits after it is the difference of the message's check bits and those. -/
theorem bwRem_append {P d : Nat} (hP : HasDegree P d) (m : List Bool) {check : List Bool} (hlen : check.length = d) :
    bwRem (m ++ check) P d = bwEnc m P d ^^^ val check := by
  have hcheck : val check < 2 ^ d := hlen ▸ val_lt check
  rw [bwRem, List.length_append, hlen, Nat.add_sub_cancel, val_append_eq_xor, hlen, divideFrom_xor,
    divideFrom_of_lt _ hcheck, ← bwEnc_eq_divideFrom hP]
  exact and_mask_of_lt (Nat.xor_lt_two_pow (and_mask_lt _ d) hcheck)

/-- The remainder of a codeword is zero exactly when its check bits are the remainder of its message part. -/
theorem bwRem_eq_zero_iff {P d : Nat} (hP : HasDegree P d) {c : List Bool} (hlen : d ≤ c.length) :
    bwRem c P d = 0 ↔ bwEnc (c.take (c.length - d)) P d = val (c.drop (c.length - d)) := by
  have hcheck : (c.drop (c.length - d)).length = d := by rw [List.length_drop]; omega
  have h := bwRem_append hP (c.take (c.length - d)) hcheck
  rw [List.take_append_drop] at h
  rw [h, Nat.xor_eq_zero_iff]

theorem bwEnc_lt (m : List Bool) (P d : Nat) : bwEnc m P d < 2 ^ d := and_mask_lt _ d

theorem bwRem_codeword {P d : Nat} (hP : HasDegree P d) (m : List Bool) :
    bwRem (codeword m d (bwEnc m P d)) P d = 0 := by
  rw [codeword, bwRem_append hP m (bitsN_length d _), val_bitsN_of_lt (bwEnc_lt m P d), Nat.xor_self]

/-! ### The engines under the invariants (R186) -/

section
variable {s : State} (poly : s.PolyInv) (cache : s.CacheInv) (valid : s.polyValid = true)
include poly cache valid

theorem tblReg_tableInUse (large : 8 ≤ s.degree) (m : List Bool) :
    tblReg s.poly s.degree s.tableInUse m = bwEnc m s.poly s.degree :=
  tblReg_eq_bwEnc large (poly.2 valid).2.2 (entry_tableInUse_toNat poly cache valid large) m

/-- Either engine of ENCODE gives the remainder of the message. -/
theorem encodeEngine_fst (t : Bool) (m : List Bool) : (encodeEngine t m s).1 = bwEnc m s.poly s.degree := by
  cases t with
  | false => rfl
  | true =>
    rw [encodeEngine, if_pos rfl]
    by_cases large : 8 ≤ s.degree
    · rw [tblEncodeEngine_of_large large, tblReg_tableInUse poly cache valid large]
    · rw [tblEncodeEngine_of_small (Nat.lt_of_not_le large), bwEncodeEngine]

/-- Either engine of DECODE finds a codeword valid exactly when it has remainder zero. -/
theorem decodeEngine_fst (t : Bool) {c : List Bool} (hlen : s.degree ≤ c.length) :
    (decodeEngine t c s).1 = (bwRem c s.poly s.degree == 0) := by
  cases t with
  | false => rfl
  | true =>
    rw [decodeEngine, if_pos rfl]
    by_cases large : 8 ≤ s.degree
    · rw [tblDecodeEngine_of_large large, tblReg_tableInUse poly cache valid large, Bool.eq_iff_iff, beq_iff_eq,
        beq_iff_eq]
      exact (bwRem_eq_zero_iff (poly.2 valid).2.2 hlen).symm
    · rw [tblDecodeEngine_of_small (Nat.lt_of_not_le large), bwDecodeEngine]

end

/-! ### What ENCODE and DECODE send, from the polynomial and the characters alone (R185) -/

/-- RW0 and the characters of ENCODE, by the bitwise engine (R181, R183). -/
def encodeAnswer (s : State) (cs : List Octet) : Word × List Octet :=
  match encodeChecks s cs with
  | some st => (Reply.word { status := st }, [])
  | none => (Reply.word { status := .ok }, charsOf (codeword (bitsOf cs) s.degree (bwEnc (bitsOf cs) s.poly s.degree)))

/-- RW0 of DECODE, by the bitwise engine (R182, R184). -/
def decodeAnswer (s : State) (cs : List Octet) : Word :=
  match decodeChecks s cs with
  | some st => Reply.word { status := st }
  | none => Reply.word { status := .ok, verdict := bwRem (bitsOf cs) s.poly s.degree == 0 }

section
variable {s u : State} (same : s.SamePoly u)
include same

theorem degree_of_samePoly : u.degree = s.degree := congrArg (fun width : BitVec 8 => width.toNat - 1) same.2.1

theorem poly_of_samePoly : u.poly = s.poly := congrArg BitVec.toNat same.1

theorem encodeAnswer_congr (cs : List Octet) : encodeAnswer u cs = encodeAnswer s cs := by
  rw [encodeAnswer, encodeAnswer, encodeChecks, encodeChecks, degree_of_samePoly same, poly_of_samePoly same, same.2.2]

theorem decodeAnswer_congr (cs : List Octet) : decodeAnswer u cs = decodeAnswer s cs := by
  rw [decodeAnswer, decodeAnswer, decodeChecks, decodeChecks, degree_of_samePoly same, poly_of_samePoly same, same.2.2]

end

/-- `i` takes its characters, sends RW0 `w` and the characters `cs`, and writes at most the cache. -/
def Answers (i : Instr) (s : State) (w : Word) (cs : List Octet) : Prop :=
  ∃ u, TableUse i s u ∧ exec i s = .next (u.after i.dataLen [w] cs)

theorem encodeWith_answers {s : State} (inv : s.Inv) (t : Bool) {len : Nat} (ready : len ≤ s.din.length) :
    Answers (encodeWith t len) s (encodeAnswer s (s.din.take len)).1 (encodeAnswer s (s.din.take len)).2 := by
  obtain ⟨poly, cache, -⟩ := inv
  rw [Answers, encodeWith_dataLen, encodeAnswer]
  cases hc : encodeChecks s (s.din.take len) with
  | some st => exact ⟨s, .inl rfl, exec_encodeWith_of_error ready hc⟩
  | none =>
    obtain ⟨valid, -, -⟩ := (encodeChecks_none_iff s _).1 hc
    obtain ⟨u, use, h⟩ := exec_encodeWith_of_ok (t := t) ready hc
    rw [encodeEngine_fst (s := s.takeInput len) poly cache valid] at h
    exact ⟨u, use, h⟩

theorem decodeWith_answers {s : State} (inv : s.Inv) (t : Bool) {len : Nat} (ready : len ≤ s.din.length) :
    Answers (decodeWith t len) s (decodeAnswer s (s.din.take len)) [] := by
  obtain ⟨poly, cache, -⟩ := inv
  rw [Answers, decodeWith_dataLen, decodeAnswer]
  cases hc : decodeChecks s (s.din.take len) with
  | some st => exact ⟨s, .inl rfl, exec_decodeWith_of_error ready hc⟩
  | none =>
    obtain ⟨valid, -, -, hlen⟩ := (decodeChecks_none_iff s _).1 hc
    obtain ⟨u, use, h⟩ := exec_decodeWith_of_ok (t := t) ready hc
    rw [decodeEngine_fst (s := s.takeInput len) poly cache valid t (by simpa using hlen)] at h
    exact ⟨u, use, h⟩

/-- A table use writes nothing but the cache, and where the command has none, not even that. -/
theorem TableUse.after_sameButCache {i : Instr} {s u : State} (use : TableUse i s u) (n : Nat) (ws : List Word)
    (cs : List Octet) : (s.after n ws cs).SameButCache (u.after n ws cs) := by
  rcases use with rfl | ⟨-, -, rfl⟩ <;> rfl

theorem TableUse.eq_of_noTable {i : Instr} {s u : State} (use : TableUse i s u)
    (noTable : i.usesTable = false ∨ s.degree < 8) : u = s := by
  rcases use with rfl | ⟨table, large, -⟩
  · rfl
  · exact absurd noTable (by simp [table, large])

/-- An answer, field by field. -/
theorem Answers.exists_next {i : Instr} {s : State} {w : Word} {cs : List Octet} (h : Answers i s w cs) :
    ∃ t, exec i s = .next t ∧ t.resp = s.resp ++ [w] ∧ t.dout = s.dout ++ cs ∧
      (s.after i.dataLen [w] cs).SameButCache t ∧
      (i.usesTable = false ∨ s.degree < 8 → t = s.after i.dataLen [w] cs) := by
  obtain ⟨u, use, h⟩ := h
  exact ⟨_, h, by rw [State.after_resp, use.resp_eq], by rw [State.after_dout, use.dout_eq],
    use.after_sameButCache _ _ _, fun noTable => by rw [use.eq_of_noTable noTable]⟩

/-! ### The engines are equivalent (R186), and nothing else counts (R185) -/

/-- Two commands that answer the same, of which the first cannot write the cache. -/
theorem Answers.next_sameButCache {i j : Instr} {s : State} {w : Word} {cs : List Octet} (hi : Answers i s w cs)
    (hj : Answers j s w cs) (noTable : i.usesTable = false) (hlen : i.dataLen = j.dataLen) :
    ∃ t u, exec i s = .next t ∧ exec j s = .next u ∧ t.resp = u.resp ∧ t.dout = u.dout ∧ t.SameButCache u := by
  obtain ⟨t, ht, respT, doutT, -, same⟩ := hi.exists_next
  obtain ⟨u, hu, respU, doutU, cacheU, -⟩ := hj.exists_next
  refine ⟨t, u, ht, hu, respT.trans respU.symm, doutT.trans doutU.symm, ?_⟩
  rw [same (.inl noTable), hlen]
  exact cacheU

/-- Settles O46: either engine answers as the bitwise engine does. -/
theorem enginesAreEquivalent : Obligations.EnginesAreEquivalent := fun _ _ inv ready =>
  ⟨(encodeWith_answers inv false ready).next_sameButCache (encodeWith_answers inv true ready) rfl rfl,
    (decodeWith_answers inv false ready).next_sameButCache (decodeWith_answers inv true ready) rfl rfl⟩

/-- Settles O51: what is answered is a function of the polynomial group and the characters. -/
theorem codecIsReferentiallyTransparent : Obligations.CodecIsReferentiallyTransparent := by
  intro op hop ts tu len s u invS invU same readyS readyU chars
  have hanswers : ∃ w cs, Answers (op ts len) s w cs ∧ Answers (op tu len) u w cs := by
    rcases hop with rfl | rfl
    · have answersU := encodeWith_answers invU tu readyU
      rw [encodeAnswer_congr same, ← chars] at answersU
      exact ⟨_, _, encodeWith_answers invS ts readyS, answersU⟩
    · have answersU := decodeWith_answers invU tu readyU
      rw [decodeAnswer_congr same, ← chars] at answersU
      exact ⟨_, _, decodeWith_answers invS ts readyS, answersU⟩
  have hlen : (op ts len).dataLen = len := by rcases hop with rfl | rfl <;> simp
  have htable : (op ts len).usesTable = ts := by rcases hop with rfl | rfl <;> simp
  obtain ⟨w, cs, answersS, answersU⟩ := hanswers
  obtain ⟨s', hs, respS, doutS, cacheS, keptS⟩ := answersS.exists_next
  obtain ⟨u', hu, respU, doutU, -, -⟩ := answersU.exists_next
  rw [hlen] at cacheS keptS
  rw [htable] at keptS
  exact ⟨s', u', [w], cs, hs, hu, respS, respU, doutS, doutU, cacheS, keptS⟩

/-! ### The round trip (R188) -/

theorem encodeAnswer_of_ok {s : State} {cs : List Octet} (ok : (encodeAnswer s cs).1 = 0x00000000#32) :
    encodeChecks s cs = none := by
  cases hc : encodeChecks s cs with
  | none => rfl
  | some st =>
    rw [encodeAnswer, hc] at ok
    change Reply.word { status := st } = 0x00000000#32 at ok
    rcases encodeChecks_ne_ok hc with rfl | rfl | rfl <;> exact absurd ok (by decide)

/-- What ENCODE sends with OK passes the checks of DECODE and has remainder zero. -/
theorem decodeAnswer_encodeAnswer {s : State} {cs : List Octet} (poly : s.PolyInv)
    (ok : (encodeAnswer s cs).1 = 0x00000000#32) : decodeAnswer s (encodeAnswer s cs).2 = 0x00000100#32 := by
  have hc := encodeAnswer_of_ok ok
  obtain ⟨valid, hne, -⟩ := (encodeChecks_none_iff s cs).1 hc
  obtain ⟨-, -, hP⟩ := poly.2 valid
  have hsent : (encodeAnswer s cs).2 =
      charsOf (codeword (bitsOf cs) s.degree (bwEnc (bitsOf cs) s.poly s.degree)) := by rw [encodeAnswer, hc]
  have hlen : (encodeAnswer s cs).2.length = cs.length + s.degree := by simp [hsent]
  have hpasses : decodeChecks s (encodeAnswer s cs).2 = none := by
    refine (decodeChecks_none_iff s _).2 ⟨valid, ?_, hsent ▸ isBinary_charsOf _, by omega⟩
    have hpos := List.length_pos_iff.2 hne
    exact List.length_pos_iff.1 (by omega)
  have hzero : bwRem (bitsOf (encodeAnswer s cs).2) s.poly s.degree = 0 := by
    rw [hsent, bitsOf_charsOf]
    exact bwRem_codeword hP (bitsOf cs)
  rw [decodeAnswer, hpasses, hzero]
  rfl

/-- Settles O48: the characters are those of `encodeAnswer`, and `decodeAnswer` finds them valid. -/
theorem roundTripIsValid : Obligations.RoundTripIsValid := by
  intro te td len s t u cw rest invS invU same ready h ok sent din
  obtain ⟨t', ht, respT, doutT, -, -⟩ := (encodeWith_answers invS te ready).exists_next
  cases h.symm.trans ht
  have hw : (encodeAnswer s (s.din.take len)).1 = 0x00000000#32 := by simpa [ok] using respT.symm
  have hcw : (encodeAnswer s (s.din.take len)).2 = cw := List.append_cancel_left (doutT.symm.trans sent)
  have htake : u.din.take cw.length = cw := by rw [din, List.take_left]
  have hready : cw.length ≤ u.din.length := by simp [din]
  obtain ⟨v, hv, respV, -⟩ := (decodeWith_answers invU td hready).exists_next
  rw [htake, decodeAnswer_congr same, ← hcw, decodeAnswer_encodeAnswer invS.1 hw] at respV
  exact ⟨v, hv, respV⟩

end Sys2Proof.Machine

/-! Proofs of the family 60_exceptions.md: the word after an illegal CW, VALIDATE and NO_POLYNOMIAL, and error completion. -/

namespace Sys2Proof.Machine

/-! ### A step of a core with no command in progress -/

/-- A step on a whole command runs it, its words removed from CMD. -/
theorem step_of_command {s : State} {i : Instr} {rest : List Word} (hidle : s.inProgress = none)
    (hhost : s.host = .keepsDuties) (hdec : decode s.cmd = .command i rest) : step s = exec i (s.setCmd rest) := by
  have hfetch : fetch s = .run i (s.setCmd rest) := by
    simp [fetch_of_keepsDuties hhost, nextCommand, hidle, hdec]
  simp only [step, hfetch]

/-- The state that `step_of_illegalWord` leaves: only CMD and RESP differ. -/
theorem after_illegalWord_eq {s : State} (hidle : s.inProgress = none) (rest : List Word) :
    (s.setCmd rest).after 0 [0x0000000A#32] [] = { s with cmd := rest, resp := s.resp ++ [0x0000000A#32] } := by
  simp [State.after, State.setCmd, hidle]

/-! ### The word after an illegal CW (R210) -/

@[simp] theorem hostReadResp_cmd (s : State) : s.hostReadResp.2.cmd = s.cmd := by
  cases h : s.resp <;> simp [State.hostReadResp, h]

@[simp] theorem hostReadResp_inProgress (s : State) : s.hostReadResp.2.inProgress = s.inProgress := by
  cases h : s.resp <;> simp [State.hostReadResp, h]

/-- Settles O4: the illegal CW leaves an idle core with the next word at the head of CMD, and the host's reading of RESP
changes neither. -/
theorem wordAfterIllegalIsNextCommandWord : Obligations.WordAfterIllegalIsNextCommandWord := by
  intro s cw next rest hidle hhost hcmd hcw
  refine ⟨_, (step_of_illegalWord hidle hhost hcmd hcw).trans (congrArg _ (after_illegalWord_eq hidle _)), rfl,
    fun u hu => ?_⟩
  obtain ⟨hidleU, hhostU, hcmdU⟩ : u.inProgress = none ∧ u.host = .keepsDuties ∧ u.cmd = next :: rest := by
    rcases hu with rfl | rfl
    · exact ⟨hidle, hhost, rfl⟩
    · simp [hidle, hhost]
  constructor
  · intro hnext
    rw [step_of_illegalWord hidleU hhostU hcmdU hnext, after_illegalWord_eq hidleU]
  · intro i rest' hdec
    exact step_of_command hidleU hhostU (hcmdU ▸ hdec)

/-! ### VALIDATE and NO_POLYNOMIAL (R221) -/

theorem code_eq_zero_iff (st : Status) : st.code.toNat = 0 ↔ st = .ok :=
  not_iff_not.1 (code_ne_zero_iff st)

theorem code_eq_eight_iff (st : Status) : st.code.toNat = 8 ↔ st = .noPolynomial := by cases st <;> decide

/-- The reply a VALIDATE ends with, if it does not wait for characters. -/
theorem exec_validate_reply {fam : Family} {imm8 : BitVec 8} {len : Nat} {s t : State}
    (h : exec (.validate fam imm8 len) s = .next t) :
    t.resp = s.resp ∨
    ∃ r : Reply, t.resp = s.resp ++ [r.word] ∧ r.status ≠ .noPolynomial ∧ (r.status = .ok → t.polyValid = true) := by
  rcases receive_cases h with ⟨-, rfl⟩ | ⟨-, h⟩
  · exact .inl rfl
  refine .inr ?_
  rcases validateBody_cases h with ⟨st, hst, rfl⟩ | ⟨ew, -, -, rfl⟩
  · obtain ⟨hne, hnok⟩ : st ≠ .noPolynomial ∧ st ≠ .ok := by
      rcases hst with ⟨-, rfl⟩ | ⟨ew, -, hc⟩
      · decide
      · rcases checkContent_ne_ok hc with rfl | rfl | rfl | rfl <;> decide
    exact ⟨{ status := st }, rfl, hne, fun hok => absurd hok hnok⟩
  · exact ⟨_, rfl, by simp, fun _ => rfl⟩

/-- Settles O20: no check of VALIDATE has NO_POLYNOMIAL as its status, and a VALIDATE that passes them all commits the
polynomial. -/
theorem validateNeverNeedsPolynomial : Obligations.ValidateNeverNeedsPolynomial := by
  intro fam imm8 len s t w h sent
  rcases exec_validate_reply h with hwait | ⟨r, hr, hne, hok⟩
  · simp [hwait] at sent
  · obtain rfl : r.word = w := by simpa [hr] using sent
    rw [statusOf_word, code_eq_zero_iff, ne_eq, code_eq_eight_iff]
    exact ⟨hne, hok⟩

/-! ### Error completion (R202) -/

/-- A command that does not wait either completes with an error or sends RW0 with OK. -/
theorem Effect.fails_or_sends_ok {i : Instr} {s t : State} (ready : Ready i s) (h : Effect i s t) :
    (∃ st : Status, t = s.after i.dataLen [Reply.word { status := st }] []) ∨
    (∃ (r : Reply) (ws : List Word), r.status = .ok ∧ t.resp = s.resp ++ r.word :: ws) := by
  cases h with
  | waits short => exact absurd ready short
  | fails st => exact .inl ⟨st, rfl⟩
  | validates => exact .inr ⟨_, [], rfl, rfl⟩
  | encodes _ _ _ _ use => exact .inr ⟨_, [], rfl, by rw [State.after_resp, use.resp_eq]⟩
  | decodes _ _ _ _ use => exact .inr ⟨_, [], rfl, by rw [State.after_resp, use.resp_eq]⟩
  | reads => exact .inr ⟨_, payload _, rfl, rfl⟩
  | reports => exact .inr ⟨_, payload _, rfl, rfl⟩

/-- A first response word with a status other than OK is an error completion's, and the only thing sent. -/
theorem Effect.eq_of_error {i : Instr} {s t : State} {w : Word} {ws : List Word} (ready : Ready i s) (h : Effect i s t)
    (sent : t.resp = s.resp ++ w :: ws) (failed : statusOf w ≠ 0) :
    w.toNat = statusOf w ∧ t = s.after i.dataLen [w] [] := by
  rcases h.fails_or_sends_ok ready with ⟨st, rfl⟩ | ⟨r, vs, hok, hr⟩
  · obtain ⟨rfl, -⟩ := List.cons.inj (List.append_cancel_left sent)
    exact ⟨by rw [errorWord_toNat, statusOf_word], rfl⟩
  · obtain ⟨rfl, -⟩ := List.cons.inj (List.append_cancel_left (hr.symm.trans sent))
    exact absurd (by rw [statusOf_word, hok, ok_code_toNat]) failed

/-- Settles O55: the step is that of the decoded command or of the illegal CW, and `Effect.eq_of_error` says what the command
leaves. -/
theorem errorCompletion : Obligations.ErrorCompletion := by
  constructor
  · intro s t i rest ws w hidle hdec ready h sent failed
    rw [step_of_command hidle (host_of_step h) hdec] at h
    obtain ⟨hw, rfl⟩ := (exec_effect h).eq_of_error (s := s.setCmd rest) ready sent failed
    exact ⟨hw, by simp [State.after, State.setCmd, hidle]⟩
  · intro s t cw rest hidle hcmd hcw h
    cases h.symm.trans (step_of_illegalWord hidle (host_of_step h) hcmd hcw)
    exact after_illegalWord_eq hidle rest

end Sys2Proof.Machine

/-! Proofs of the family 70_reset_and_hazards.md: the reset state, and the contents of TBL while TBL_VALID is 0. -/

namespace Sys2Proof.Machine

/-! ### Reset (70_reset_and_hazards.md R230) -/

theorem reset_polyInv : State.reset.PolyInv := ⟨fun _ => ⟨rfl, rfl⟩, nofun⟩

theorem reset_cacheInv : State.reset.CacheInv := nofun

/-- Settles O11: the registers by the definition of the reset state, and both invariants because neither group is valid. -/
theorem resetState : Obligations.ResetState :=
  ⟨rfl, rfl, rfl, rfl, rfl, rfl, rfl, rfl, rfl, rfl, rfl, reset_polyInv, reset_cacheInv⟩

/-! ### Another table where TBL_VALID is 0 (R232)

Every operation of the machine commutes with the exchange of a table that is not valid: where it does not build, it does not look
at the table; where it builds, nothing of the old table is left. -/

/-- `s` with `t0` for its table, unless that table is valid. -/
def State.swapInvalidTable (s : State) (t0 : Table) : State := { s with tbl := if s.tblValid = true then s.tbl else t0 }

theorem swapInvalidTable_of_valid {s : State} (valid : s.tblValid = true) (t0 : Table) : s.swapInvalidTable t0 = s := by
  simp only [State.swapInvalidTable, if_pos valid]

theorem swapInvalidTable_of_invalid {s : State} (invalid : s.tblValid = false) (t0 : Table) :
    s.swapInvalidTable t0 = { s with tbl := t0 } := by
  simp [State.swapInvalidTable, invalid]

@[simp] theorem swapInvalidTable_polyValid (s : State) (t0 : Table) :
    (s.swapInvalidTable t0).polyValid = s.polyValid := rfl

@[simp] theorem swapInvalidTable_wsSet (s : State) (t0 : Table) : (s.swapInvalidTable t0).wsSet = s.wsSet := rfl

@[simp] theorem encodeChecks_swapInvalidTable (s : State) (t0 : Table) (cs : List Octet) :
    encodeChecks (s.swapInvalidTable t0) cs = encodeChecks s cs := rfl

@[simp] theorem decodeChecks_swapInvalidTable (s : State) (t0 : Table) (cs : List Octet) :
    decodeChecks (s.swapInvalidTable t0) cs = decodeChecks s cs := rfl

/-- The table in use is the cached one only on a hit, and a hit is valid. -/
theorem tableInUse_swapInvalidTable (s : State) (t0 : Table) : (s.swapInvalidTable t0).tableInUse = s.tableInUse := by
  by_cases hit : s.CacheHit
  · rw [swapInvalidTable_of_valid hit.1]
  · rw [tableInUse_of_miss hit, tableInUse_of_miss (s := s.swapInvalidTable t0) hit]
    rfl

/-- After a table use the table is valid, the same for either old table. -/
theorem withTableInUse_swapInvalidTable (s : State) (t0 : Table) :
    (s.swapInvalidTable t0).withTableInUse = s.withTableInUse := by
  rw [State.withTableInUse, tableInUse_swapInvalidTable]
  rfl

theorem getTable_swapInvalidTable (s : State) (t0 : Table) :
    getTable (s.swapInvalidTable t0) = ((getTable s).1, (getTable s).2.swapInvalidTable t0) := by
  by_cases large : 8 ≤ s.degree
  · rw [getTable_of_large large, getTable_of_large (s := s.swapInvalidTable t0) large, tableInUse_swapInvalidTable,
      withTableInUse_swapInvalidTable, swapInvalidTable_of_valid (s := s.withTableInUse) rfl]
  · have small : s.degree < 8 := Nat.lt_of_not_le large
    rw [getTable_of_small small, getTable_of_small (s := s.swapInvalidTable t0) small]

/-- An engine gives the same for either table, and leaves states that differ in a table that is not valid at most. -/
def EngineCommutes {α : Type} (t0 : Table) (engine : List Bool → State → α × State) : Prop :=
  ∀ (bits : List Bool) (s : State),
    engine bits (s.swapInvalidTable t0) = ((engine bits s).1, (engine bits s).2.swapInvalidTable t0)

section
variable {t0 : Table}

theorem bwEncodeEngine_commutes : EngineCommutes t0 bwEncodeEngine := fun _ _ => rfl

theorem bwDecodeEngine_commutes : EngineCommutes t0 bwDecodeEngine := fun _ _ => rfl

theorem tblEncodeEngine_commutes : EngineCommutes t0 tblEncodeEngine := by
  intro m s
  rw [tblEncodeEngine, tblEncodeEngine, getTable_swapInvalidTable]
  rcases getTable s with ⟨_ | t, u⟩ <;> rfl

theorem tblDecodeEngine_commutes : EngineCommutes t0 tblDecodeEngine := by
  intro c s
  rw [tblDecodeEngine, tblDecodeEngine, getTable_swapInvalidTable]
  rcases getTable s with ⟨_ | t, u⟩ <;> rfl

/-- A meaning answers a next state, and the same one for another table that is not valid, but for that table. -/
def MeaningCommutes (t0 : Table) (meaning : State → Result) : Prop :=
  ∀ s : State, ∃ a, meaning s = .next a ∧ meaning (s.swapInvalidTable t0) = .next (a.swapInvalidTable t0)

theorem raise_commutes (st : Status) : MeaningCommutes t0 (raise st) := fun _ => ⟨_, rfl, rfl⟩

theorem receive_commutes {body : List Octet → State → Result} (i : Instr) (h : ∀ cs, MeaningCommutes t0 (body cs)) :
    MeaningCommutes t0 (fun s => receive i s body) := by
  intro s
  by_cases ready : Ready i s
  · obtain ⟨a, ha, hb⟩ := h (s.din.take i.dataLen) (s.takeInput i.dataLen)
    exact ⟨a, (receive_of_ready body ready).trans ha,
      (receive_of_ready (s := s.swapInvalidTable t0) body ready).trans hb⟩
  · exact ⟨_, receive_of_short body ready, receive_of_short (s := s.swapInvalidTable t0) body ready⟩

theorem encodeBody_commutes {engine : List Bool → State → Nat × State} (h : EngineCommutes t0 engine) (cs : List Octet) :
    MeaningCommutes t0 (encodeBody engine cs) := by
  intro s
  rw [encodeBody, encodeBody, encodeChecks_swapInvalidTable]
  cases encodeChecks s cs with
  | some st => exact raise_commutes st s
  | none => exact ⟨_, rfl, by rw [h]; rfl⟩

theorem decodeBody_commutes {engine : List Bool → State → Bool × State} (h : EngineCommutes t0 engine) (cs : List Octet) :
    MeaningCommutes t0 (decodeBody engine cs) := by
  intro s
  rw [decodeBody, decodeBody, decodeChecks_swapInvalidTable]
  cases decodeChecks s cs with
  | some st => exact raise_commutes st s
  | none => exact ⟨_, rfl, by rw [h]; rfl⟩

theorem validateBody_commutes (fam : Family) (imm8 : BitVec 8) (cs : List Octet) :
    MeaningCommutes t0 (validateBody fam imm8 cs) := by
  intro s
  rw [validateBody, validateBody, swapInvalidTable_wsSet]
  cases expectedWidth fam imm8 with
  | none => exact raise_commutes .invalidWidth s
  | some ew =>
    dsimp only
    cases checkContent s.wsSet ew (stripWs s.wsSet cs) with
    | some st => exact raise_commutes st s
    | none => exact ⟨_, rfl, rfl⟩

theorem execTread_commutes (index : BitVec 8) : MeaningCommutes t0 (execTread index) := by
  intro s
  rw [execTread, execTread, swapInvalidTable_polyValid, getTable_swapInvalidTable]
  cases s.polyValid with
  | false => exact raise_commutes .noPolynomial s
  | true =>
    rcases getTable s with ⟨_ | t, u⟩
    · exact raise_commutes .noTable u
    · exact ⟨_, rfl, rfl⟩

theorem execQpoly_commutes : MeaningCommutes t0 execQpoly := by
  intro s
  rw [execQpoly, execQpoly, swapInvalidTable_polyValid]
  cases s.polyValid with
  | false => exact raise_commutes .noPolynomial s
  | true => exact ⟨_, rfl, rfl⟩

theorem exec_commutes (i : Instr) : MeaningCommutes t0 (exec i) := by
  cases i with
  | validate fam imm8 len => exact receive_commutes _ (validateBody_commutes fam imm8)
  | encodeBw len => exact receive_commutes _ (encodeBody_commutes (bwEncodeEngine_commutes))
  | encodeTbl len => exact receive_commutes _ (encodeBody_commutes (tblEncodeEngine_commutes))
  | decodeBw len => exact receive_commutes _ (decodeBody_commutes (bwDecodeEngine_commutes))
  | decodeTbl len => exact receive_commutes _ (decodeBody_commutes (tblDecodeEngine_commutes))
  | tread index => exact execTread_commutes index
  | qpoly => exact execQpoly_commutes

end

/-- A command that leaves the table valid where it was not has built it whole. -/
theorem cachesTableOf_of_becomes_valid {i : Instr} {s a : State} (h : exec i s = .next a) (invalid : s.tblValid = false)
    (valid : a.tblValid = true) : CachesTableOf s a := by
  rcases (exec_effect h).cacheKeptOrBuilt with ⟨-, -, -, same⟩ | ⟨-, -, -, -, -, built⟩
  · rw [same, invalid] at valid
    cases valid
  · exact built

/-- Settles O42: the command commutes with the exchange of the table (`exec_commutes`), which is no exchange any more once the
table is valid. -/
theorem invalidTableIsUnobservable : Obligations.InvalidTableIsUnobservable := by
  intro i s t0 invalid
  obtain ⟨a, ha, hb⟩ := exec_commutes (t0 := t0) i s
  rw [swapInvalidTable_of_invalid invalid] at hb
  refine ⟨a, _, ha, hb, fun valid => ?_, fun still => swapInvalidTable_of_invalid still t0⟩
  obtain ⟨entries, -⟩ := cachesTableOf_of_becomes_valid ha invalid valid
  exact ⟨swapInvalidTable_of_valid valid t0, entries⟩

end Sys2Proof.Machine

/-! Proofs of the family 30_encoding.md, continued: decoding and encoding are each other's inverse, and what the lines of
assembly write. -/

namespace Sys2Proof.Machine

/-! ### A command word from its fields (30_encoding.md R60) -/

theorem assembleCW_toNat (op : BitVec 8) (t : Bool) (fam : BitVec 3) (imm8 : BitVec 8) :
    (assembleCW op t fam imm8).toNat = op.toNat + 2 ^ 8 * t.toNat + 2 ^ 9 * fam.toNat + 2 ^ 16 * imm8.toNat := by
  have hop := op.isLt
  have hfam := fam.isLt
  have ht := Bool.toNat_le t
  simp only [assembleCW, BitVec.toNat_append, BitVec.toNat_ofNat, BitVec.toNat_ofBool]
  rw [← Nat.shiftLeft_add_eq_or_of_lt (by omega), ← Nat.shiftLeft_add_eq_or_of_lt (by omega),
    ← Nat.shiftLeft_add_eq_or_of_lt (by omega)]
  simp only [Nat.shiftLeft_eq, Nat.zero_mod, Nat.zero_mul, Nat.zero_or, Nat.or_zero]
  omega

section
variable (op : BitVec 8) (t : Bool) (fam : BitVec 3) (imm8 : BitVec 8)

@[simp] theorem fieldOp_assembleCW : fieldOp (assembleCW op t fam imm8) = op := by
  rw [BitVec.toNat_eq, ← cwBits_op, cwBits, assembleCW_toNat]
  omega

@[simp] theorem fieldT_assembleCW : fieldT (assembleCW op t fam imm8) = t := by
  have ht := Bool.toNat_le t
  rw [Bool.eq_iff_iff, ← Bool.toNat_eq_one, ← Bool.toNat_eq_one, ← cwBits_t, cwBits, assembleCW_toNat]
  omega

@[simp] theorem fieldFam_assembleCW : fieldFam (assembleCW op t fam imm8) = fam := by
  have ht := Bool.toNat_le t
  rw [BitVec.toNat_eq, ← cwBits_fam, cwBits, assembleCW_toNat]
  omega

@[simp] theorem fieldImm8_assembleCW : fieldImm8 (assembleCW op t fam imm8) = imm8 := by
  have ht := Bool.toNat_le t
  rw [BitVec.toNat_eq, ← cwBits_imm8, cwBits, assembleCW_toNat]
  omega

@[simp] theorem fieldRsv0_assembleCW : fieldRsv0 (assembleCW op t fam imm8) = 0#4 := by
  have ht := Bool.toNat_le t
  rw [BitVec.toNat_eq, ← cwBits_rsv0, cwBits, assembleCW_toNat, BitVec.toNat_ofNat]
  omega

@[simp] theorem fieldRsv1_assembleCW : fieldRsv1 (assembleCW op t fam imm8) = 0#8 := by
  have ht := Bool.toNat_le t
  rw [BitVec.toNat_eq, ← cwBits_rsv1, cwBits, assembleCW_toNat, BitVec.toNat_ofNat]
  omega

@[simp] theorem reservedZero_assembleCW : reservedZero (assembleCW op t fam imm8) = true := by simp [reservedZero]

end

/-- A word is a form's word exactly when its reserved fields are zero and its other fields are the form's. -/
theorem eq_assembleCW_iff (cw : Word) (op : BitVec 8) (t : Bool) (fam : BitVec 3) (imm8 : BitVec 8) :
    cw = assembleCW op t fam imm8 ↔
      fieldOp cw = op ∧ reservedZero cw = true ∧ fieldT cw = t ∧ fieldFam cw = fam ∧ fieldImm8 cw = imm8 := by
  simp only [word_ext_iff, fieldOp_assembleCW, fieldT_assembleCW, fieldFam_assembleCW, fieldRsv0_assembleCW,
    fieldImm8_assembleCW, fieldRsv1_assembleCW, reservedZero, Bool.and_eq_true, beq_iff_eq]
  tauto

@[simp] theorem ofCode_code (fam : Family) : Family.ofCode fam.code = fam := by cases fam <;> rfl

@[simp] theorem code_ofCode : ∀ c : BitVec 3, (Family.ofCode c).code = c := by decide

/-! ### A legal command word and its head (R62, R63) -/

/-- The command word of a head. -/
def headWord : Head → Word
  | .validate fam imm8 => assembleCW 0x01#8 false fam.code imm8
  | .encode t => assembleCW 0x02#8 t 0#3 0#8
  | .decode t => assembleCW 0x03#8 t 0#3 0#8
  | .tread index => assembleCW 0x04#8 false 0#3 index
  | .qpoly => assembleCW 0x05#8 false 0#3 0#8

theorem decodeCW_headWord (head : Head) : decodeCW (headWord head) = .ok head := by
  cases head <;> simp [decodeCW, headWord]

/-- A row of `decodeCW` that gives `head` has its field test `p` passed, and the row's own head is `head`. -/
theorem eq_headWord_of_row {cw : Word} {p : Prop} [Decidable p] {found head : Head}
    (h : (if p then .ok found else .error .nonzeroField : Except IllegalReason Head) = .ok head)
    (fits : p → cw = headWord found) : cw = headWord head := by
  by_cases hp : p
  · rw [if_pos hp] at h
    cases h
    exact fits hp
  · rw [if_neg hp] at h
    cases h

theorem eq_headWord_of_decodeCW {cw : Word} {head : Head} (h : decodeCW cw = .ok head) : cw = headWord head := by
  rw [decodeCW] at h
  repeat
    split at h
    · exact eq_headWord_of_row h fun _ => by simp_all [headWord, eq_assembleCW_iff]
  cases h

/-- The words of a command are its head's, and its LEN word where the head takes one. -/
theorem encode_toInstr (head : Head) (len : Nat) :
    encode (head.toInstr len) = headWord head :: if head.takesLen then [BitVec.ofNat 32 len] else [] := by
  rcases head with _ | (_ | _) | (_ | _) | _ | _ <;> rfl

theorem wellFormed_iff (i : Instr) : i.WellFormed ↔ i.dataLen < 2 ^ 32 := by
  cases i <;> simp [Instr.WellFormed, Instr.wf, Instr.dataLen]

/-- Every command is a head with its LEN, which is 0 where the head takes none. -/
theorem exists_toInstr_eq (i : Instr) :
    ∃ head : Head, head.toInstr i.dataLen = i ∧ (head.takesLen = false → i.dataLen = 0) := by
  cases i with
  | validate fam imm8 len => exact ⟨.validate fam imm8, rfl, nofun⟩
  | encodeBw len => exact ⟨.encode false, rfl, nofun⟩
  | encodeTbl len => exact ⟨.encode true, rfl, nofun⟩
  | decodeBw len => exact ⟨.decode false, rfl, nofun⟩
  | decodeTbl len => exact ⟨.decode true, rfl, nofun⟩
  | tread index => exact ⟨.tread index, rfl, fun _ => rfl⟩
  | qpoly => exact ⟨.qpoly, rfl, fun _ => rfl⟩

theorem encode_of_toInstr_eq {head : Head} {i : Instr} (hi : head.toInstr i.dataLen = i) :
    encode i = headWord head :: if head.takesLen then [BitVec.ofNat 32 i.dataLen] else [] := by
  rw [← encode_toInstr, hi]

/-- The LEN word of a command has room for its LEN. -/
theorem dataLen_mod {i : Instr} (wf : i.WellFormed) : i.dataLen % 4294967296 = i.dataLen :=
  Nat.mod_eq_of_lt ((wellFormed_iff i).1 wf)

theorem decode_encode {i : Instr} (wf : i.WellFormed) (rest : List Word) :
    decode (encode i ++ rest) = .command i rest := by
  obtain ⟨head, hi, noLen⟩ := exists_toInstr_eq i
  rw [encode_of_toInstr_eq hi]
  cases takes : head.takesLen with
  | true => simpa [decode, decodeCW_headWord, takes, dataLen_mod wf] using hi
  | false => simpa [decode, decodeCW_headWord, takes, noLen takes] using hi

theorem toInstr_dataLen (head : Head) (len : Nat) :
    (head.toInstr len).dataLen = if head.takesLen then len else 0 := by
  rcases head with _ | (_ | _) | (_ | _) | _ | _ <;> rfl

theorem eq_encode_of_decode {ws : List Word} {i : Instr} {rest : List Word} (h : decode ws = .command i rest) :
    i.WellFormed ∧ ws = encode i ++ rest := by
  cases ws with
  | nil => cases h
  | cons cw tail =>
    cases hcw : decodeCW cw with
    | error why => simp [decode, hcw] at h
    | ok head =>
      rw [wellFormed_iff, eq_headWord_of_decodeCW hcw]
      cases takes : head.takesLen with
      | false =>
        obtain ⟨rfl, rfl⟩ : head.toInstr 0 = i ∧ tail = rest := by simpa [decode, hcw, takes] using h
        simp [toInstr_dataLen, encode_toInstr, takes]
      | true =>
        cases tail with
        | nil => simp [decode, hcw, takes] at h
        | cons len tail =>
          obtain ⟨rfl, rfl⟩ : head.toInstr len.toNat = i ∧ tail = rest := by simpa [decode, hcw, takes] using h
          simpa [toInstr_dataLen, encode_toInstr, takes] using len.isLt

/-- Settles O1: the decoder finds the head in its own word (`decodeCW_headWord`), and LEN in the word after it. -/
theorem decodeOfEncodeIsIdentity : Obligations.DecodeOfEncodeIsIdentity := fun _ rest wf => decode_encode wf rest

/-- Settles O2: a legal CW is its head's word (`eq_headWord_of_decodeCW`), and LEN is the word after it. -/
theorem encodeOfDecodeIsIdentity : Obligations.EncodeOfDecodeIsIdentity := fun _ _ _ h => eq_encode_of_decode h

/-! ### The lines of assembly (R72, R73) -/

theorem lineWrites_of_words {a : Asm} {i : Instr} {cs : List Octet} (words : a.words = encode i) (wf : i.WellFormed)
    (chars : a.chars = cs) : LineWrites a i cs := by
  have h := decode_encode wf []
  rw [List.append_nil, ← words] at h
  exact ⟨h, chars⟩

/-- Settles O6: each line writes the encoding of its command, which decodes to it (`decode_encode`). -/
theorem assemblyLinesDecode : Obligations.AssemblyLinesDecode := by
  refine ⟨fun s hs => ?_, fun i => lineWrites_of_words rfl rfl rfl, lineWrites_of_words rfl rfl rfl,
    fun v => ⟨rfl, rfl⟩, fun s => ⟨rfl, rfl, rfl, rfl, rfl, rfl, fun n => rfl⟩, fun a => ?_⟩
  · have line {a : Asm} {i : Instr} (words : a.words = encode i) (len : i.dataLen = s.length) (chars : a.chars = s) :
        LineWrites a i s := lineWrites_of_words words ((wellFormed_iff i).2 (len ▸ hs)) chars
    exact ⟨line rfl rfl rfl, line rfl rfl rfl, line rfl rfl rfl, line rfl rfl rfl, fun w => line rfl rfl rfl,
      line rfl rfl rfl, line rfl rfl rfl, line rfl rfl rfl, line rfl rfl rfl⟩
  · have idem : a.expand.expand = a.expand := by
      rcases a with _ | _ | _ | _ | _ | _ | _ | _ | _ | _ | ⟨_, _ | _⟩ | ⟨_, _ | _⟩ | _ <;> rfl
    simp only [Asm.words, Asm.chars, idem, and_self]

end Sys2Proof.Machine

/-! Proofs of the family 41_bitwise_engine.md: polynomial division over GF(2), the remainder's uniqueness, and what the two
derived flags mean. -/

namespace Sys2Proof.Machine

/-! ### Multiples of a polynomial (00_scope.md R14) -/

theorem divideFrom_zero (P d n : Nat) : divideFrom P d n 0 = 0 := by
  simpa using divideFrom_xor P d n 0 0

/-- `P` itself, wherever it is aligned, leaves nothing in the register. -/
theorem divideFrom_shiftLeft_self {P d n k : Nat} (hP : HasDegree P d) (hk : k < n) : divideFrom P d n (P <<< k) = 0 := by
  obtain ⟨m, rfl⟩ := Nat.exists_eq_add_of_lt hk
  have hlt : P <<< k < 2 ^ (d + (k + 1)) := by
    rw [← Nat.add_assoc, Nat.add_right_comm]
    exact Nat.shiftLeft_lt hP.lt_two_pow
  have htop : (P <<< k).testBit (d + k) = true := by simp [Nat.testBit_shiftLeft, hP.testBit_self]
  rw [Nat.add_right_comm, divideFrom_add_of_lt m hlt, divideFrom, htop, if_pos rfl, Nat.xor_self, divideFrom_zero]

theorem divideFrom_gfMul {P d n : Nat} (hP : HasDegree P d) {q : List Bool} (hq : q.length ≤ n) :
    divideFrom P d n (gfMul q P) = 0 := by
  induction q with
  | nil => exact divideFrom_zero P d n
  | cons b q ih =>
    have hterm : divideFrom P d n ((if b then P else 0) <<< q.length) = 0 := by
      cases b with
      | false => rw [if_neg Bool.false_ne_true, Nat.zero_shiftLeft, divideFrom_zero]
      | true => exact divideFrom_shiftLeft_self hP hq
    rw [gfMul_cons, divideFrom_xor, hterm, ih (Nat.le_of_lt hq), Nat.xor_self]

/-- The multiples of `P` are what the scan takes to 0. -/
theorem gfDivides_iff {P d n a : Nat} (hP : HasDegree P d) (ha : a < 2 ^ (d + n)) :
    GfDivides P a ↔ divideFrom P d n a = 0 := by
  constructor
  · rintro ⟨q, rfl⟩
    rw [← divideFrom_add_of_lt q.length ha]
    exact divideFrom_gfMul hP (Nat.le_add_left _ _)
  · intro h
    obtain ⟨q, -, hq⟩ := exists_gfMul_eq_xor_divideFrom P d n a
    exact ⟨q, by rw [← hq, h, Nat.xor_zero]⟩

theorem lt_two_pow_add_self (a d : Nat) : a < 2 ^ (d + a) :=
  Nat.lt_two_pow_self.trans_le (Nat.pow_le_pow_right two_pos (Nat.le_add_left a d))

/-- A remainder is what the scan leaves. -/
theorem IsRemainder.eq_divideFrom {a P d n r : Nat} (hP : HasDegree P d) (ha : a < 2 ^ (d + n))
    (h : IsRemainder a P d r) : r = divideFrom P d n a := by
  obtain ⟨hr, hdiv⟩ := h
  have hlt : a ^^^ r < 2 ^ (d + n) :=
    Nat.xor_lt_two_pow ha (hr.trans_le (Nat.pow_le_pow_right two_pos (Nat.le_add_right d n)))
  rw [gfDivides_iff hP hlt, divideFrom_xor, divideFrom_of_lt n hr, Nat.xor_eq_zero_iff] at hdiv
  exact hdiv.symm

/-- Settles O26: both are what the scan leaves of `a`. -/
theorem remainderIsUnique : Obligations.RemainderIsUnique := fun a _ d _ _ hP hr hq =>
  (hr.eq_divideFrom hP (lt_two_pow_add_self a d)).trans (hq.eq_divideFrom hP (lt_two_pow_add_self a d)).symm

theorem val_lt_two_pow_scan (s : List Bool) (d : Nat) : val s < 2 ^ (d + (s.length - d)) :=
  (val_lt s).trans_le (Nat.pow_le_pow_right two_pos (by omega))

theorem bwRem_eq_divideFrom {P d : Nat} (hP : HasDegree P d) (c : List Bool) :
    bwRem c P d = divideFrom P d (c.length - d) (val c) :=
  and_mask_of_lt (divideFrom_lt hP (val_lt_two_pow_scan c d))

theorem val_shiftLeft_lt (s : List Bool) (d : Nat) : val s <<< d < 2 ^ (d + s.length) :=
  Nat.add_comm _ d ▸ Nat.shiftLeft_lt (val_lt s)

theorem bwEnc_isRemainder {P d : Nat} (hP : HasDegree P d) (m : List Bool) :
    IsRemainder (val m <<< d) P d (bwEnc m P d) :=
  bwEnc_eq_divideFrom hP m ▸ divideFrom_isRemainder hP (val_shiftLeft_lt m d)

theorem bwRem_isRemainder {P d : Nat} (hP : HasDegree P d) (c : List Bool) : IsRemainder (val c) P d (bwRem c P d) :=
  bwRem_eq_divideFrom hP c ▸ divideFrom_isRemainder hP (val_lt_two_pow_scan c d)

/-- Settles O25: the mask cuts nothing off what the scan leaves, which is the remainder. -/
theorem bitwiseEngineComputesRemainder : Obligations.BitwiseEngineComputesRemainder := fun s _ _ hP _ =>
  ⟨bwEnc_isRemainder hP s, bwRem_isRemainder hP s⟩

theorem bwRem_eq_zero_iff_gfDivides {P d : Nat} (hP : HasDegree P d) (c : List Bool) :
    bwRem c P d = 0 ↔ GfDivides P (val c) := by
  rw [bwRem_eq_divideFrom hP, gfDivides_iff hP (val_lt_two_pow_scan c d)]

theorem bwEnc_eq_zero_iff_gfDivides {P d : Nat} (hP : HasDegree P d) (m : List Bool) :
    bwEnc m P d = 0 ↔ GfDivides P (val m <<< d) := by
  rw [bwEnc_eq_divideFrom hP, gfDivides_iff hP (val_shiftLeft_lt m d)]

/-! ### The scan, position by position (R122 (a)) -/

theorem HasDegree.shiftLeft {P d : Nat} (hP : HasDegree P d) (k : Nat) : HasDegree (P <<< k) (d + k) := by
  rw [HasDegree, Nat.add_comm d k, Nat.shiftRight_add, Nat.shiftLeft_shiftRight]
  exact hP

/-- The scan's last `k` positions go on from what the positions before them leave. -/
theorem divideFrom_add (P d k m A : Nat) :
    divideFrom P d (k + m) A = divideFrom P d k (divideFrom (P <<< k) (d + k) m A) := by
  induction m generalizing A with
  | zero => rfl
  | succ m ih => rw [← Nat.add_assoc, divideFrom, ih, divideFrom, ← Nat.shiftLeft_add, Nat.add_assoc d k m]

/-- Settles O27: the positions down to `d + k` are a scan for `P` shifted by `k`, and each leaves a register one bit shorter. -/
theorem scanClearsHighBits : Obligations.ScanClearsHighBits := by
  intro A P d k n hP hA hk
  obtain ⟨m, rfl⟩ := Nat.exists_eq_add_of_le hk
  rw [Nat.add_sub_cancel_left]
  refine ⟨divideFrom_lt (hP.shiftLeft k) (by rwa [Nat.add_assoc]), divideFrom_add P d k m A, ?_⟩
  exact and_mask_of_lt (divideFrom_lt hP hA)

/-! ### Linearity (R122 (c), (d), (e)) -/

theorem val_cons_eq_xor (b : Bool) (s : List Bool) : val (b :: s) = (b.toNat <<< s.length) ^^^ val s := by
  rw [← List.singleton_append, val_append_eq_xor, val_singleton]

theorem val_zipWith_xor {a b : List Bool} (h : a.length = b.length) :
    val (List.zipWith xor a b) = val a ^^^ val b := by
  induction a generalizing b with
  | nil => cases List.length_eq_zero_iff.1 h.symm; rfl
  | cons x a ih =>
    cases b with
    | nil => cases h
    | cons y b =>
      have hlen : a.length = b.length := Nat.succ.inj h
      have hzip : (List.zipWith xor a b).length = b.length := by simp [hlen]
      have hbit : (xor x y).toNat = x.toNat ^^^ y.toNat := by cases x <;> cases y <;> rfl
      rw [List.zipWith_cons_cons, val_cons_eq_xor, val_cons_eq_xor, val_cons_eq_xor, hzip, hlen, ih hlen, hbit,
        Nat.shiftLeft_xor_distrib]
      simp only [Nat.xor_assoc, Nat.xor_left_comm]

theorem bwRem_zipWith_xor (P d : Nat) {a b : List Bool} (h : a.length = b.length) :
    bwRem (List.zipWith xor a b) P d = bwRem a P d ^^^ bwRem b P d := by
  rw [bwRem, bwRem, bwRem, List.length_zipWith, h, Nat.min_self, val_zipWith_xor h, divideFrom_xor,
    Nat.and_xor_distrib_right]

theorem bwEnc_zipWith_xor (P d : Nat) {a b : List Bool} (h : a.length = b.length) :
    bwEnc (List.zipWith xor a b) P d = bwEnc a P d ^^^ bwEnc b P d := by
  rw [bwEnc, bwEnc, bwEnc, List.length_zipWith, h, Nat.min_self, val_zipWith_xor h, Nat.shiftLeft_xor_distrib,
    divideFrom_xor, Nat.and_xor_distrib_right]

theorem bwEnc_false_cons (m : List Bool) (P d : Nat) : bwEnc (false :: m) P d = bwEnc m P d := by
  have hval : val (false :: m) = val m := by simp [val_cons]
  rw [bwEnc, bwEnc, List.length_cons, hval, divideFrom_add_of_lt 1 (val_shiftLeft_lt m d)]

theorem bwEnc_zeros (n P d : Nat) : bwEnc (List.replicate n false) P d = 0 := by
  induction n with
  | zero => simp [bwEnc, divideFrom]
  | succ n ih => rw [List.replicate_succ, bwEnc_false_cons, ih]

/-- Settles O28: the scan is linear (`divideFrom_xor`), and appended zeros are check bits 0. -/
theorem divisionIsLinear : Obligations.DivisionIsLinear := by
  intro P d hP _
  refine ⟨fun m => ?_, fun a b h => ⟨bwRem_zipWith_xor P d h, bwEnc_zipWith_xor P d h⟩,
    fun m => bwEnc_false_cons m P d, fun n => bwEnc_zeros n P d⟩
  rw [bwRem_append hP m (bitsN_length d 0), val_bitsN, Nat.zero_mod, Nat.xor_zero]

/-! ### Divisibility by `x` and by `x + 1` (10_state.md R27, 40_validator.md R105) -/

theorem gfMul_concat (q : List Bool) (b : Bool) (p : Nat) :
    gfMul (q ++ [b]) p = (gfMul q p <<< 1) ^^^ (if b then p else 0) := by
  rw [gfMul, List.foldl_append]
  rfl

/-- A multiple of `P` has a constant term only where `P` and the other factor both have one. -/
theorem testBit_zero_gfMul_concat (q : List Bool) (b : Bool) (p : Nat) :
    (gfMul (q ++ [b]) p).testBit 0 = (b && p.testBit 0) := by
  rw [gfMul_concat, Nat.testBit_xor, Nat.testBit_shiftLeft]
  cases b <;> simp

theorem GfDivides.testBit_zero {P a : Nat} (h : GfDivides P a) (hP : P.testBit 0 = false) : a.testBit 0 = false := by
  obtain ⟨q, rfl⟩ := h
  rcases List.eq_nil_or_concat' q with rfl | ⟨q, b, rfl⟩
  · exact Nat.zero_testBit 0
  · rw [testBit_zero_gfMul_concat, hP, Bool.and_false]

/-- `x` divides exactly the polynomials without a constant term. -/
theorem gfDivides_x_iff (a : Nat) : GfDivides 0b10 a ↔ a.testBit 0 = false := by
  refine ⟨fun h => h.testBit_zero rfl, fun h => ?_⟩
  have ha := lt_two_pow_add_self a 1
  obtain ⟨hr, hdiv⟩ := divideFrom_isRemainder (P := 0b10) (d := 1) rfl ha
  have hbit := hdiv.testBit_zero rfl
  rw [Nat.testBit_xor, h, Bool.false_xor, Nat.testBit_zero, decide_eq_false_iff_not] at hbit
  rw [gfDivides_iff (d := 1) rfl ha]
  omega

/-- The remainder of `x^n` by `x + 1` is 1. -/
theorem divideFrom_three_shiftLeft (n : Nat) : divideFrom 0b11 1 n (1 <<< n) = 1 := by
  induction n with
  | zero => rfl
  | succ n ih =>
    have htop : (1 <<< (n + 1)).testBit (1 + n) = true := by simp [Nat.testBit_shiftLeft, Nat.add_comm]
    have hnext : 1 <<< (n + 1) ^^^ 0b11 <<< n = 1 <<< n := by
      rw [Nat.add_comm n 1, Nat.shiftLeft_add, ← Nat.shiftLeft_xor_distrib]
      rfl
    rw [divideFrom, htop, if_pos rfl, hnext, ih]

/-- The remainder by `x + 1` is the parity of the number of terms. -/
theorem divideFrom_three_val (s : List Bool) : divideFrom 0b11 1 s.length (val s) = s.count true % 2 := by
  induction s with
  | nil => rfl
  | cons b s ih =>
    have hlt : val s < 2 ^ (1 + s.length) := (val_lt s).trans_le (Nat.pow_le_pow_right two_pos (Nat.le_add_left _ 1))
    have hhead : divideFrom 0b11 1 (s.length + 1) (b.toNat <<< s.length) = b.toNat := by
      cases b with
      | false => rw [Bool.toNat_false, Nat.zero_shiftLeft, divideFrom_zero]
      | true =>
        have hone : 1 <<< s.length < 2 ^ (1 + s.length) := by
          rw [Nat.one_shiftLeft, Nat.pow_lt_pow_iff_right one_lt_two]
          omega
        rw [Bool.toNat_true, divideFrom_add_of_lt 1 hone, divideFrom_three_shiftLeft]
    rw [val_cons_eq_xor, List.length_cons, divideFrom_xor, hhead, divideFrom_add_of_lt 1 hlt, ih, List.count_cons]
    rcases Nat.mod_two_eq_zero_or_one (s.count true) with h | h <;> cases b <;> simp [h, Nat.add_mod]

theorem gfDivides_three_val_iff (s : List Bool) : GfDivides 0b11 (val s) ↔ s.count true % 2 = 0 := by
  have hlt : val s < 2 ^ (1 + s.length) := (val_lt s).trans_le (Nat.pow_le_pow_right two_pos (Nat.le_add_left _ 1))
  rw [gfDivides_iff (d := 1) rfl hlt, divideFrom_three_val]

theorem popcount_eq_count {n : Nat} (p : BitVec n) : popcount p = (bitsN n p.toNat).count true := by
  have bits (k : Nat) : ((List.range k).filter (fun i => p.getLsbD i)).length = (bitsN k p.toNat).count true := by
    induction k with
    | zero => rfl
    | succ k ih =>
      rw [List.range_succ, List.filter_append, List.length_append, ih, bitsN, List.count_cons]
      cases h : p.toNat.testBit k <;> simp [BitVec.getLsbD, h]
  exact bits n

/-- `x + 1` divides exactly the polynomials with an even number of terms. -/
theorem gfDivides_three_iff {n : Nat} (p : BitVec n) : GfDivides 0b11 p.toNat ↔ popcount p % 2 = 0 := by
  rw [popcount_eq_count, ← gfDivides_three_val_iff, val_bitsN_of_lt p.isLt]

/-- Settles O22: the constant term decides divisibility by `x`, and the parity of the terms divisibility by `x + 1`. -/
theorem derivedFlagsMeanDivisibility : Obligations.DerivedFlagsMeanDivisibility := by
  intro p
  constructor
  · rw [ndxFlag, gfDivides_x_iff, Bool.not_eq_false]
    rfl
  · rw [dxp1Flag, beq_iff_eq, gfDivides_three_iff]

/-! ### Multiples of multiples, and multiples of a polynomial with a constant term -/

theorem GfDivides.shiftLeft {P a : Nat} (h : GfDivides P a) : GfDivides P (a <<< 1) := by
  obtain ⟨q, rfl⟩ := h
  exact ⟨q ++ [false], by simp [gfMul_concat]⟩

/-- With a constant term, `P` divides `x * a` only where it divides `a`. -/
theorem GfDivides.of_shiftLeft {P a : Nat} (hP : P.testBit 0 = true) (h : GfDivides P (a <<< 1)) : GfDivides P a := by
  obtain ⟨q, hq⟩ := h
  rcases List.eq_nil_or_concat' q with rfl | ⟨q, b, rfl⟩
  · exact ⟨[], by simpa [gfMul, Nat.shiftLeft_eq] using hq⟩
  · have hb : b = false := by
      have hbit := testBit_zero_gfMul_concat q b P
      rw [← hq, hP, Bool.and_true] at hbit
      rw [← hbit]
      simp
    refine ⟨q, ?_⟩
    rw [hb, gfMul_concat, if_neg Bool.false_ne_true, Nat.xor_zero, Nat.shiftLeft_eq, Nat.shiftLeft_eq] at hq
    omega

theorem gfDivides_shiftLeft_iff {P : Nat} (hP : P.testBit 0 = true) (a k : Nat) :
    GfDivides P (a <<< k) ↔ GfDivides P a := by
  induction k with
  | zero => rfl
  | succ k ih => rw [Nat.shiftLeft_add, ← ih]; exact ⟨GfDivides.of_shiftLeft hP, GfDivides.shiftLeft⟩

theorem not_gfDivides_one {P d : Nat} (hP : HasDegree P d) (hd : 1 ≤ d) : ¬ GfDivides P 1 := by
  rw [gfDivides_iff (n := 0) hP (Nat.one_lt_two_pow (by omega))]
  exact Nat.one_ne_zero

theorem GfDivides.xor {P d a b : Nat} (hP : HasDegree P d) (ha : GfDivides P a) (hb : GfDivides P b) :
    GfDivides P (a ^^^ b) := by
  have hlt {c : Nat} (hc : c ≤ a + b) : c < 2 ^ (d + (a + b)) :=
    (lt_two_pow_add_self c d).trans_le (Nat.pow_le_pow_right two_pos (by omega))
  have hla := hlt (Nat.le_add_right a b)
  have hlb := hlt (Nat.le_add_left b a)
  rw [gfDivides_iff hP (Nat.xor_lt_two_pow hla hlb), divideFrom_xor, (gfDivides_iff hP hla).1 ha,
    (gfDivides_iff hP hlb).1 hb, Nat.xor_self]

theorem GfDivides.trans {D d P a : Nat} (hD : HasDegree D d) (hP : GfDivides D P) (ha : GfDivides P a) :
    GfDivides D a := by
  obtain ⟨q, rfl⟩ := ha
  induction q using List.reverseRecOn with
  | nil => exact ⟨[], rfl⟩
  | append_singleton q b ih =>
    rw [gfMul_concat]
    refine ih.shiftLeft.xor hD ?_
    cases b with
    | false => exact ⟨[], rfl⟩
    | true => exact hP

theorem val_eq_zero_of_count {e : List Bool} (h : e.count true = 0) : val e = 0 := by
  induction e with
  | nil => rfl
  | cons b e ih =>
    cases b with
    | false => simpa [val_cons] using ih (by simpa using h)
    | true => simp at h

/-- A string with one `1` is a power of `x`. -/
theorem exists_val_eq_shiftLeft {e : List Bool} (h : e.count true = 1) : ∃ k, val e = 1 <<< k := by
  induction e with
  | nil => cases h
  | cons b e ih =>
    cases b with
    | false =>
      obtain ⟨k, hk⟩ := ih (by simpa using h)
      exact ⟨k, by simpa [val_cons] using hk⟩
    | true =>
      have hrest : val e = 0 := val_eq_zero_of_count (by simpa using h)
      exact ⟨e.length, by rw [val_cons_eq_xor, hrest, Nat.xor_zero, Bool.toNat_true]⟩

/-- With a constant term, `P` divides no power of `x`. -/
theorem not_gfDivides_of_count_eq_one {P d : Nat} (hP : HasDegree P d) (hd : 1 ≤ d) (h0 : P.testBit 0 = true)
    {e : List Bool} (h : e.count true = 1) : ¬ GfDivides P (val e) := by
  obtain ⟨k, hk⟩ := exists_val_eq_shiftLeft h
  rw [hk, gfDivides_shiftLeft_iff h0]
  exact not_gfDivides_one hP hd

/-- With an even number of terms, `P` divides no polynomial with an odd number of terms. -/
theorem not_gfDivides_of_count_odd {n : Nat} {p : BitVec n} (hp : popcount p % 2 = 0) {e : List Bool}
    (h : e.count true % 2 = 1) : ¬ GfDivides p.toNat (val e) := by
  intro hdiv
  have h3 := ((gfDivides_three_iff p).2 hp).trans (d := 1) rfl hdiv
  rw [gfDivides_three_val_iff] at h3
  omega

end Sys2Proof.Machine

/-! Proofs of the family 43_table_engine.md: the table register against the bitwise engine, and the source's literal table
decode. -/

namespace Sys2Proof.Machine

/-! ### The table register (43_table_engine.md R165) -/

/-- Settles O43: a register step is one position of the scan, which leaves the remainder. -/
theorem bitStepIsRemainder : Obligations.BitStepIsRemainder := by
  intro P d r b hP hd hr
  have hbit : b.toNat <<< d < 2 ^ (d + 1) := by
    rw [Nat.add_comm]
    exact Nat.shiftLeft_lt (by cases b <;> decide)
  rw [step1_eq_divideFrom hP hd hr]
  exact divideFrom_isRemainder hP (Nat.xor_lt_two_pow (Nat.shiftLeft_lt hr) hbit)

/-- Settles O44: the byte is the value of its eight bits (`stepB_eq_foldl_step1`). -/
theorem byteStepIsEightBitSteps : Obligations.ByteStepIsEightBitSteps := by
  intro P d r byte hP hd hmax hr hbyte
  have h := stepB_eq_foldl_step1 (W := d + 1) hd hP (entry_buildTable_toNat hd hP hmax) hr (bitsN_length 8 byte)
  rw [val_bitsN_of_lt hbyte] at h
  exact h.symm

theorem tblReg_buildTable {P d : Nat} (hP : HasDegree P d) (hd : 8 ≤ d) (hmax : d ≤ 127) (s : List Bool) :
    tblReg P d (buildTable P (d + 1)) s = bwEnc s P d :=
  tblReg_eq_bwEnc (W := d + 1) hd hP (entry_buildTable_toNat hd hP hmax) s

/-- Settles O45: the table register is the bitwise engine's remainder (`tblReg_buildTable`). -/
theorem tableRegisterEqualsBitwise : Obligations.TableRegisterEqualsBitwise := by
  intro P d s hP hd hmax
  rw [tblReg_buildTable hP hd hmax]
  exact ⟨rfl, bwEnc_isRemainder hP s, rfl⟩

/-- Settles O47: with a constant term `P` divides `x^d` times the codeword exactly where it divides the codeword; `x^8` has
none. -/
theorem literalTableDecode : Obligations.LiteralTableDecode := by
  refine ⟨fun P d c hP hd hmax h0 => ?_, by decide, ?_⟩
  · rw [tblReg_buildTable hP hd hmax, bwEnc_eq_zero_iff_gfDivides hP, bwRem_eq_zero_iff_gfDivides hP,
      gfDivides_shiftLeft_iff h0]
  · rw [tblReg_buildTable rfl (by decide) (by decide)]
    decide

end Sys2Proof.Machine

/-! Proofs of the family 42_table_generator.md, continued: the table GetTable returns, and what TREAD answers. -/

namespace Sys2Proof.Machine

/-! ### Response and payload words (20_memory.md R46, 30_encoding.md R70) -/

/-- A 128-bit payload by arithmetic on its value. -/
theorem payload_eq (v : BitVec 128) :
    payload v = [BitVec.ofNat 32 v.toNat, BitVec.ofNat 32 (v.toNat / 2 ^ 32), BitVec.ofNat 32 (v.toNat / 2 ^ 64),
      BitVec.ofNat 32 (v.toNat / 2 ^ 96)] := by
  have word (lo : Nat) : v.extractLsb' lo 32 = BitVec.ofNat 32 (v.toNat / 2 ^ lo) := by
    rw [BitVec.toNat_eq, BitVec.extractLsb'_toNat, BitVec.toNat_ofNat, Nat.shiftRight_eq_div_pow]
  rw [payload, word, word, word, word, pow_zero, Nat.div_one]

/-- Settles O58: the four words are the value's digits to the base `2^32`. -/
theorem payloadLeastSignificantFirst : Obligations.PayloadLeastSignificantFirst := by
  intro v
  refine ⟨_, _, _, _, payload_eq v, ?_⟩
  have hv := v.isLt
  simp only [BitVec.toNat_ofNat]
  omega

/-! ### GetTable and TREAD (42_table_generator.md R142, R145, R147) -/

/-- Settles O37: GetTable returns the table in use, and only from degree 8 up. -/
theorem tableIsTransparent : Obligations.TableIsTransparent := by
  intro s u t ⟨poly, cache, _⟩ valid h
  by_cases large : 8 ≤ s.degree
  · rw [getTable_of_large large] at h
    obtain ⟨ht, -⟩ := Prod.mk.inj h
    cases ht
    exact entry_tableInUse_toNat poly cache valid large
  · rw [getTable_of_small (Nat.lt_of_not_le large)] at h
    cases h

theorem exec_tread_of_invalid {s : State} (index : BitVec 8) (invalid : s.polyValid = false) :
    exec (.tread index) s = .next (s.after 0 [Reply.word { status := .noPolynomial }] []) := by
  simp only [exec, execTread, invalid, Bool.false_eq_true, if_false, raise_eq]

theorem exec_tread_of_small {s : State} (index : BitVec 8) (valid : s.polyValid = true) (small : s.degree < 8) :
    exec (.tread index) s = .next (s.after 0 [Reply.word { status := .noTable }] []) := by
  simp only [exec, execTread, valid, if_true, getTable_of_small small, raise_eq]

theorem exec_tread_of_large {s : State} (index : BitVec 8) (valid : s.polyValid = true) (large : 8 ≤ s.degree) :
    exec (.tread index) s = .next (s.withTableInUse.after 0
      (Reply.word { status := .ok } :: payload ((entry s.tableInUse index).zeroExtend 128)) []) := by
  simp only [exec, execTread, valid, if_true, getTable_of_large large, State.respond_eq_after]

/-- Settles O38: TREAD from degree 8 up (`exec_tread_of_large`), the entry having the same value in 128 bits as in 127. -/
theorem treadSendsEntry : Obligations.TreadSendsEntry := by
  intro index s valid large
  have hentry : ((entry s.tableInUse index).zeroExtend 128).toNat = (entry s.tableInUse index).toNat :=
    BitVec.toNat_setWidth_of_le (by decide)
  rw [exec_tread_of_large index valid large, payload_eq, hentry]
  rfl

/-- Settles O39: NO_POLYNOMIAL where POLY_VALID is 0, then NO_TABLE where GetTable returns none. -/
theorem treadErrorsInOrder : Obligations.TreadErrorsInOrder := fun index _ =>
  ⟨exec_tread_of_invalid index, exec_tread_of_small index⟩

end Sys2Proof.Machine

/-! Proofs of the family 44_codec.md, continued: what a successful ENCODE or DECODE leaves, and which flipped characters DECODE
detects. -/

namespace Sys2Proof.Machine

/-! ### A successful ENCODE (41_bitwise_engine.md R123, 43_table_engine.md R163) -/

theorem charsOf_codeword {cs : List Octet} (hbin : AllBinary cs) (d rem : Nat) :
    charsOf (codeword (bitsOf cs) d rem) = cs ++ charsOf (bitsN d rem) := by
  rw [codeword, charsOf_append, charsOf_bitsOf hbin]

/-- ENCODE of a binary message, from what its engine answers. -/
theorem exec_encodeWith_sends {t : Bool} {len rem : Nat} {s u : State} (ready : len ≤ s.din.length)
    (valid : s.polyValid = true) (pos : 0 < len) (hbin : AllBinary (s.din.take len))
    (engine : encodeEngine t (bitsOf (s.din.take len)) (s.takeInput len) = (rem, u)) :
    exec (encodeWith t len) s = .next (u.respond [0x00000000#32] (s.din.take len ++ charsOf (bitsN s.degree rem))) := by
  have hc : encodeChecks (s.takeInput len) (s.din.take len) = none :=
    (encodeChecks_none_iff _ _).2 ⟨valid, take_ne_nil_of_pos pos ready, hbin⟩
  simp only [exec_encodeWith_of_ready ready, encodeBody, hc, engine, charsOf_codeword hbin, State.takeInput_degree]
  rfl

/-- Settles O29: ENCODE's engine is the bitwise one, which leaves the state alone. -/
theorem encodeBwSendsCodeword : Obligations.EncodeBwSendsCodeword := by
  rintro len s _ ready rfl valid pos hbin
  exact exec_encodeWith_sends (t := false) ready valid pos hbin rfl

/-- Settles O30: ENCODE's engine is the fallback below degree 8, and the table register from 8 up. -/
theorem encodeTblSendsCodeword : Obligations.EncodeTblSendsCodeword := by
  rintro len s _ ready rfl valid pos hbin
  have sends {rem : Nat} {u : State} := exec_encodeWith_sends (t := true) (rem := rem) (u := u) ready valid pos hbin
  exact ⟨fun small => sends (tblEncodeEngine_of_small (s := s.takeInput len) small),
    fun large => sends (tblEncodeEngine_of_large (s := s.takeInput len) large)⟩

/-! ### A successful DECODE (R124, R164) -/

theorem verdictWord_eq (v : Bool) :
    Reply.word { status := .ok, verdict := v } = if v = true then 0x00000100#32 else 0x00000000#32 := by
  cases v <;> rfl

/-- DECODE of a binary codeword that is long enough, from what its engine answers. -/
theorem exec_decodeWith_sends {t verdict : Bool} {len : Nat} {s u : State} (ready : len ≤ s.din.length)
    (valid : s.polyValid = true) (pos : 0 < len) (hbin : AllBinary (s.din.take len)) (long : s.degree ≤ len)
    (engine : decodeEngine t (bitsOf (s.din.take len)) (s.takeInput len) = (verdict, u)) :
    exec (decodeWith t len) s = .next (u.respond [if verdict = true then 0x00000100#32 else 0x00000000#32] []) := by
  have hc : decodeChecks (s.takeInput len) (s.din.take len) = none :=
    (decodeChecks_none_iff _ _).2 ⟨valid, take_ne_nil_of_pos pos ready, hbin, by rwa [List.length_take_of_le ready]⟩
  simp only [exec_decodeWith_of_ready ready, decodeBody, hc, engine, verdictWord_eq]

/-- Settles O32: DECODE's engine is the bitwise one, which leaves the state alone. -/
theorem decodeBwReportsVerdict : Obligations.DecodeBwReportsVerdict := by
  rintro len s _ ready rfl valid pos hbin long
  have h := exec_decodeWith_sends (t := false) ready valid pos hbin long rfl
  simp only [beq_iff_eq] at h
  exact h

theorem bitsOf_take (n : Nat) (cs : List Octet) : bitsOf (cs.take n) = (bitsOf cs).take n := List.map_take

theorem bitsOf_drop (n : Nat) (cs : List Octet) : bitsOf (cs.drop n) = (bitsOf cs).drop n := List.map_drop

/-- Settles O33: DECODE's engine is the fallback below degree 8, and from 8 up the comparison with the check bits. -/
theorem decodeTblReportsVerdict : Obligations.DecodeTblReportsVerdict := by
  rintro len s _ ready rfl valid pos hbin long
  have sends {verdict : Bool} {u : State} :=
    exec_decodeWith_sends (t := true) (verdict := verdict) (u := u) ready valid pos hbin long
  constructor
  · intro small
    have h := sends (tblDecodeEngine_of_small (s := s.takeInput len) small)
    simp only [beq_iff_eq] at h
    exact h
  · intro large
    have h := sends (tblDecodeEngine_of_large (s := s.takeInput len) large)
    simp only [beq_iff_eq, bitsOf_length, List.length_take_of_le ready] at h
    rw [bitsOf_take (len - s.degree), bitsOf_drop]
    exact h

/-! ### Flipped characters (44_codec.md R189) -/

theorem flipChars_length {e : List Bool} {cs : List Octet} (h : e.length = cs.length) :
    (flipChars e cs).length = cs.length := by
  simp [flipChars, h]

theorem allBinary_flipChars (e : List Bool) {cs : List Octet} (hbin : AllBinary cs) : AllBinary (flipChars e cs) := by
  induction cs generalizing e with
  | nil => simpa [flipChars] using hbin
  | cons c cs ih =>
    obtain ⟨hc, hcs⟩ := List.forall_mem_cons.1 hbin
    rcases e with _ | ⟨b, e⟩
    · exact nofun
    · refine List.forall_mem_cons.2 ⟨?_, ih e hcs⟩
      cases b <;> rcases hc with rfl | rfl <;> decide

/-- Flipping characters adds the pattern of the flips to the string. -/
theorem bitsOf_flipChars (e : List Bool) {cs : List Octet} (hbin : AllBinary cs) :
    bitsOf (flipChars e cs) = List.zipWith xor e (bitsOf cs) := by
  induction cs generalizing e with
  | nil => simp [flipChars, bitsOf]
  | cons c cs ih =>
    obtain ⟨hc, hcs⟩ := List.forall_mem_cons.1 hbin
    rcases e with _ | ⟨b, e⟩
    · simp [flipChars, bitsOf]
    · refine congrArg₂ List.cons ?_ (ih e hcs)
      cases b <;> rcases hc with rfl | rfl <;> decide

/-- VERDICT 1 means that the codeword passes the checks and has remainder 0. -/
theorem valid_of_decodeAnswer {s : State} {cs : List Octet} (h : decodeAnswer s cs = 0x00000100#32) :
    decodeChecks s cs = none ∧ bwRem (bitsOf cs) s.poly s.degree = 0 := by
  rw [decodeAnswer] at h
  cases hc : decodeChecks s cs with
  | some st =>
    rw [hc] at h
    change Reply.word { status := st } = 0x00000100#32 at h
    rcases decodeChecks_ne_ok hc with rfl | rfl | rfl | rfl <;> exact absurd h (by decide)
  | none =>
    simp only [hc, verdictWord_eq] at h
    refine ⟨rfl, of_not_not fun hrem => ?_⟩
    simp [hrem] at h

/-- A flip pattern that the polynomial does not divide makes a valid codeword invalid. -/
theorem decodeAnswer_flipChars {s : State} {cs : List Octet} {e : List Bool} (poly : s.PolyInv)
    (h : decodeAnswer s cs = 0x00000100#32) (hlen : e.length = cs.length)
    (hdiv : s.polyValid = true → ¬ GfDivides s.poly (val e)) : decodeAnswer s (flipChars e cs) = 0x00000000#32 := by
  obtain ⟨hc, hrem⟩ := valid_of_decodeAnswer h
  obtain ⟨valid, hne, hbin, hlong⟩ := (decodeChecks_none_iff s cs).1 hc
  have hP : HasDegree s.poly s.degree := (poly.2 valid).2.2
  have hne' : flipChars e cs ≠ [] := by
    rw [← List.length_pos_iff, flipChars_length hlen]
    exact List.length_pos_iff.2 hne
  have hc' : decodeChecks s (flipChars e cs) = none :=
    (decodeChecks_none_iff s _).2 ⟨valid, hne', allBinary_flipChars e hbin, by rwa [flipChars_length hlen]⟩
  have hrem' : bwRem (bitsOf (flipChars e cs)) s.poly s.degree ≠ 0 := by
    rw [bitsOf_flipChars e hbin, bwRem_zipWith_xor _ _ (by simpa using hlen), hrem, Nat.xor_zero,
      ne_eq, bwRem_eq_zero_iff_gfDivides hP]
    exact hdiv valid
  simp only [decodeAnswer, hc', verdictWord_eq, beq_iff_eq, if_neg hrem']

/-- The same as commands, with any two engines. -/
theorem exec_decodeWith_flipped {td te : Bool} {len : Nat} {s t : State} {e : List Bool} (inv : s.Inv)
    (ready : len ≤ s.din.length) (h : exec (decodeWith td len) s = .next t) (sent : t.resp = s.resp ++ [0x00000100#32])
    (hlen : e.length = len) (hdiv : s.polyValid = true → ¬ GfDivides s.poly (val e)) :
    ∃ u, exec (decodeWith te len) { s with din := flipChars e (s.din.take len) ++ s.din.drop len } = .next u ∧
      u.resp = s.resp ++ [0x00000000#32] := by
  obtain ⟨t', ht, respT, -⟩ := (decodeWith_answers inv td ready).exists_next
  cases h.symm.trans ht
  have hvalid : decodeAnswer s (s.din.take len) = 0x00000100#32 := by simpa [sent] using respT.symm
  have htake : (s.din.take len).length = len := List.length_take_of_le ready
  have hflip := decodeAnswer_flipChars inv.1 hvalid (hlen.trans htake.symm) hdiv
  have hflen : (flipChars e (s.din.take len)).length = len := by rw [flipChars_length (hlen.trans htake.symm), htake]
  have hready : len ≤ (flipChars e (s.din.take len) ++ s.din.drop len).length := by
    rw [List.length_append, hflen]
    exact Nat.le_add_right _ _
  obtain ⟨u, hu, respU, -⟩ := (decodeWith_answers
    (s := { s with din := flipChars e (s.din.take len) ++ s.din.drop len }) inv te hready).exists_next
  rw [List.take_left' hflen] at respU
  exact ⟨u, hu, respU.trans (congrArg (fun w => s.resp ++ [w]) hflip)⟩

/-- Settles O49: one flip is a power of `x`, which no polynomial with a constant term divides. -/
theorem singleFlipIsDetected : Obligations.SingleFlipIsDetected := by
  intro td te len s t e inv ready h0 h sent hlen hone
  refine exec_decodeWith_flipped inv ready h sent hlen fun valid => ?_
  obtain ⟨hmin, -, hP⟩ := inv.1.2 valid
  exact not_gfDivides_of_count_eq_one hP (by omega) h0 hone

/-- Settles O50: a pattern of an odd number of flips is no multiple of `x + 1`, and so none of a polynomial that is. -/
theorem oddFlipsAreDetected : Obligations.OddFlipsAreDetected := by
  intro td te len s t e inv ready heven h sent hlen hodd
  exact exec_decodeWith_flipped inv ready h sent hlen fun _ => not_gfDivides_of_count_odd heven hodd

end Sys2Proof.Machine

/-! Proofs of the families 20_memory.md and 70_reset_and_hazards.md, continued: that every command answers a next state, what a
step does for a host that keeps its duties, the host's acts, and when the host leaves the core no step. -/

namespace Sys2Proof.Machine

/-! ### Every command answers a next state (60_exceptions.md R202, R229) -/

theorem exec_of_short {i : Instr} {s : State} (short : ¬ Ready i s) : exec i s = .next (s.hold i) := by
  cases i with
  | validate fam imm8 len => exact receive_of_short (i := .validate fam imm8 len) _ short
  | encodeBw len => exact receive_of_short (i := .encodeBw len) _ short
  | encodeTbl len => exact receive_of_short (i := .encodeTbl len) _ short
  | decodeBw len => exact receive_of_short (i := .decodeBw len) _ short
  | decodeTbl len => exact receive_of_short (i := .decodeTbl len) _ short
  | tread | qpoly => exact absurd (Nat.zero_le _) short

/-- A body that always answers a next state makes a command that does. -/
theorem receive_next {body : List Octet → State → Result} (i : Instr) (s : State)
    (h : ∀ (cs : List Octet) (u : State), ∃ t, body cs u = .next t) : ∃ t, receive i s body = .next t := by
  by_cases ready : Ready i s
  · rw [receive_of_ready body ready]
    exact h _ _
  · exact ⟨_, receive_of_short body ready⟩

theorem encodeBody_next (engine : List Bool → State → Nat × State) (cs : List Octet) (s : State) :
    ∃ t, encodeBody engine cs s = .next t := by
  rw [encodeBody]
  cases encodeChecks s cs <;> exact ⟨_, rfl⟩

theorem decodeBody_next (engine : List Bool → State → Bool × State) (cs : List Octet) (s : State) :
    ∃ t, decodeBody engine cs s = .next t := by
  rw [decodeBody]
  cases decodeChecks s cs <;> exact ⟨_, rfl⟩

theorem validateBody_next (fam : Family) (imm8 : BitVec 8) (cs : List Octet) (s : State) :
    ∃ t, validateBody fam imm8 cs s = .next t := by
  rw [validateBody]
  cases expectedWidth fam imm8 with
  | none => exact ⟨_, rfl⟩
  | some ew =>
    dsimp only
    cases checkContent s.wsSet ew (stripWs s.wsSet cs) <;> exact ⟨_, rfl⟩

theorem exec_qpoly_of_invalid {s : State} (invalid : s.polyValid = false) :
    exec .qpoly s = .next (s.after 0 [Reply.word { status := .noPolynomial }] []) := by
  simp only [exec, execQpoly, invalid, Bool.false_eq_true, if_false, raise_eq]

theorem exec_qpoly_of_valid {s : State} (valid : s.polyValid = true) :
    exec .qpoly s = .next (s.after 0
      (Reply.word { status := .ok, ndx := ndxFlag s.polyBits, dxp1 := dxp1Flag s.polyBits, rwidth := s.polyWidth }
        :: payload s.polyBits) []) := by
  simp only [exec, execQpoly, valid, if_true, State.respond_eq_after]

theorem exec_next (i : Instr) (s : State) : ∃ t, exec i s = .next t := by
  cases i with
  | validate fam imm8 len => exact receive_next _ s (validateBody_next fam imm8)
  | encodeBw len => exact receive_next _ s (encodeBody_next bwEncodeEngine)
  | encodeTbl len => exact receive_next _ s (encodeBody_next tblEncodeEngine)
  | decodeBw len => exact receive_next _ s (decodeBody_next bwDecodeEngine)
  | decodeTbl len => exact receive_next _ s (decodeBody_next tblDecodeEngine)
  | tread index => rcases execTread_cases index s with ⟨-, h⟩ | ⟨-, -, h⟩ | ⟨-, -, h⟩ <;> exact ⟨_, h⟩
  | qpoly =>
    cases hv : s.polyValid with
    | false => exact ⟨_, exec_qpoly_of_invalid hv⟩
    | true => exact ⟨_, exec_qpoly_of_valid hv⟩

/-- Settles O10: each body ends in a response, and a command short of characters is held. -/
theorem everyCommandAnswersNext : Obligations.EveryCommandAnswersNext := exec_next

/-! ### Steps of a host that keeps its duties (20_memory.md R41, 70_reset_and_hazards.md R230, R240) -/

/-- Settles O7: a step runs what `nextCommand` finds. -/
theorem stepRunsDecodedCommand : Obligations.StepRunsDecodedCommand := by
  refine ⟨fun s i rest hidle hhost hdec => step_of_command hidle hhost hdec, fun s i hbusy hhost => ?_⟩
  simp only [step, fetch_of_keepsDuties hhost, nextCommand_of_inProgress hbusy]

theorem step_of_incomplete {s : State} (hidle : s.inProgress = none) (hhost : s.host = .keepsDuties)
    (hdec : decode s.cmd = .incomplete) : step s = .next s := by
  simp only [step, fetch_of_keepsDuties hhost, nextCommand, hidle, hdec]

theorem takesLen_of_op_le {head : Head} (h : cwBits (headWord head) 0 8 ≤ 3) : head.takesLen = true := by
  rw [cwBits_op] at h
  cases head with
  | validate | encode | decode => rfl
  | tread | qpoly => simp [headWord] at h

/-- A legal CW of an opcode that takes LEN, alone on CMD. -/
theorem decode_of_lenMissing {cw : Word} (legal : ¬ IllegalWord cw) (hop : cwBits cw 0 8 ≤ 3) :
    decode [cw] = .incomplete := by
  cases hcw : decodeCW cw with
  | error why => exact absurd ((decodeCW_error_iff cw).1 ⟨why, hcw⟩) legal
  | ok head =>
    rw [eq_headWord_of_decodeCW hcw] at hop
    simp [decode, hcw, takesLen_of_op_le hop]

/-- Settles O8: words that are no whole command decode as incomplete, and a command short of characters is held. -/
theorem coreWaitsForMissingItems : Obligations.CoreWaitsForMissingItems := by
  refine ⟨fun s hidle hhost hcmd => step_of_incomplete hidle hhost (by rw [hcmd]; rfl),
    fun s cw hidle hhost hcmd legal hop => step_of_incomplete hidle hhost (hcmd ▸ decode_of_lenMissing legal hop),
    fun i s short => exec_of_short (Nat.not_le.2 short)⟩

theorem step_next_of_keepsDuties {s : State} (hhost : s.host = .keepsDuties) : ∃ t, step s = .next t := by
  rw [step, fetch_of_keepsDuties hhost]
  cases hn : nextCommand s with
  | wait => exact ⟨s, rfl⟩
  | stuck why => exact absurd hn (nextCommand_ne_stuck s why)
  | illegal why u => exact ⟨_, rfl⟩
  | run i u => exact exec_next i u

/-- A step stops exactly where the host has broken a duty, with the reason of that duty. -/
theorem step_fault_iff (s : State) (why : Fault) : step s = .fault why ↔
    (s.host = .sentEarly ∧ why = .stuckResponseUnread) ∨ (s.host = .stopsDraining ∧ why = .stuckNotDrained) := by
  cases hhost : s.host with
  | keepsDuties =>
    obtain ⟨t, ht⟩ := step_next_of_keepsDuties hhost
    simp [ht]
  | sentEarly => simp [step, fetch, hhost, eq_comm]
  | stopsDraining => simp [step, fetch, hhost, eq_comm]

/-- Settles O9: `step_fault_iff` for the two broken duties, and otherwise a step goes on. -/
theorem stuckExactlyWhenHostLeavesResponses : Obligations.StuckExactlyWhenHostLeavesResponses := fun s =>
  ⟨fun h => (step_fault_iff s _).2 (.inl ⟨h, rfl⟩), fun h => (step_fault_iff s _).2 (.inr ⟨h, rfl⟩),
    step_next_of_keepsDuties⟩

/-! ### The host's acts (R41, R231, R240) -/

theorem reset_inv : State.reset.Inv := ⟨reset_polyInv, reset_cacheInv, by decide⟩

/-- Settles O12: neither group is valid at reset, and the default WS_SET is whitespace. -/
theorem resetMeetsInvariant : Obligations.ResetMeetsInvariant := reset_inv

/-- Settles O14: the reset state but for WS_SET, whose constraint the state had. -/
theorem resetDuringCommand : Obligations.ResetDuringCommand := fun _ =>
  ⟨⟨rfl, rfl, rfl⟩, rfl, rfl, rfl, rfl, rfl, rfl, rfl, rfl, rfl, rfl,
    fun ⟨_, _, ws⟩ => ⟨reset_polyInv, reset_cacheInv, ws⟩⟩

theorem hostReadResp_inv {s : State} (inv : s.Inv) : s.hostReadResp.2.Inv := by
  rw [State.hostReadResp]
  cases s.resp <;> exact inv

theorem hostReadDout_inv {s : State} (inv : s.Inv) : s.hostReadDout.2.Inv := by
  rw [State.hostReadDout]
  cases s.dout <;> exact inv

/-- Settles O15: each act by its definition. -/
theorem hostChannelActs : Obligations.HostChannelActs := by
  intro s cw len cs
  refine ⟨⟨_, _, rfl⟩, ⟨_, rfl⟩, fun w rest h => ⟨_, hostReadResp_of_cons h⟩,
    fun c rest h => ⟨_, hostReadDout_of_cons h⟩, fun h => ?_, fun h => ?_,
    fun inv => ⟨inv, inv, hostReadResp_inv inv, hostReadDout_inv inv⟩⟩
  · rw [State.hostReadResp, h]
  · rw [State.hostReadDout, h]

theorem extractLsb'_eq_zero_iff_statusOf (w : Word) : w.extractLsb' 0 8 = 0#8 ↔ statusOf w = 0 := by
  rw [BitVec.toNat_eq, BitVec.extractLsb'_toNat, Nat.shiftRight_zero]
  rfl

theorem fieldOp_eq_iff (cw : Word) (op : BitVec 8) : fieldOp cw = op ↔ cwBits cw 0 8 = op.toNat := by
  rw [cwBits_op, BitVec.toNat_eq]

/-- What reading RW0 leaves the host to read, by arithmetic on the words (R45). -/
theorem afterWord_response (w : Word) (d : Nat) (cw : Word) (len : Option Word) (got : Nat) :
    (Unread.response cw len got).afterWord w d = .items
      (if statusOf w = 0 ∧ (cwBits cw 0 8 = 4 ∨ cwBits cw 0 8 = 5) then 4 else 0)
      ((if statusOf w = 0 ∧ cwBits cw 0 8 = 2 then (len.getD 0#32).toNat + d else 0) - got) := by
  simp only [Unread.afterWord, payloadDue, charsDue, extractLsb'_eq_zero_iff_statusOf, fieldOp_eq_iff,
    BitVec.reduceToNat]

theorem hostReadResp_unread {s : State} (h : s.resp ≠ []) :
    ∃ w, s.hostReadResp.2.unread = s.unread.afterWord w s.degree := by
  obtain ⟨w, rest, h⟩ := List.exists_cons_of_ne_nil h
  exact ⟨w, by rw [hostReadResp_of_cons h]⟩

theorem hostReadDout_unread {s : State} (h : s.dout ≠ []) : s.hostReadDout.2.unread = s.unread.afterChar := by
  obtain ⟨c, rest, h⟩ := List.exists_cons_of_ne_nil h
  rw [hostReadDout_of_cons h]

/-- An act that leaves a broken duty noted leaves the core without a step for the same reason. -/
theorem step_fault_of_host_eq {s u : State} {why : Fault} (h : step s = .fault why)
    (hu : s.host ≠ .keepsDuties → u.host = s.host) : step u = .fault why := by
  rw [step_fault_iff] at h ⊢
  rw [hu]
  · exact h
  · rcases h with ⟨h, -⟩ | ⟨h, -⟩ <;> simp [h]

theorem hostSend_host_of_broken {s : State} (h : s.host ≠ .keepsDuties) (cw : Word) (len : Option Word)
    (cs : List Octet) : (s.hostSend cw len cs).host = s.host := by
  rw [State.hostSend_host, HostConduct.breaking_of_ne h, ite_self]

/-- Settles O60: a duty is noted as broken where `readWhole` fails or draining stops, and stays noted (`step_fault_iff`) until a
reset. -/
theorem brokenDutyLeavesNoStep : Obligations.BrokenDutyLeavesNoStep := by
  refine ⟨fun s cw len cs hhost => ⟨fun hread => ?_, fun hread => ?_⟩, fun s cw len cs => rfl,
    fun s cw w len got rest hunread hresp => ?_, fun s n m hunread => ⟨fun hresp => ?_, fun hdout => ?_⟩,
    fun s cw len got hunread hdout => ?_, fun s hhost => ?_, fun s why cw len cs h => ⟨?_, ?_, ?_, ?_, ?_⟩,
    fun s => step_of_incomplete rfl rfl rfl⟩
  · rw [State.hostSend_host, if_pos ((readWhole_iff s).2 hread), hhost]
  · rw [step_fault_iff, State.hostSend_host, if_neg (mt (readWhole_iff s).1 hread), hhost]
    exact .inl ⟨rfl, rfl⟩
  · rw [hostReadResp_of_cons hresp, hunread, afterWord_response]
  · obtain ⟨w, h⟩ := hostReadResp_unread hresp
    rw [h, hunread, Unread.afterWord]
  · rw [hostReadDout_unread hdout, hunread, Unread.afterChar]
  · rw [hostReadDout_unread hdout, hunread, Unread.afterChar]
  · rw [step_fault_iff, State.hostStopsDraining_host, hhost]
    exact .inr ⟨rfl, rfl⟩
  · exact step_fault_of_host_eq h fun _ => hostReadResp_host s
  · exact step_fault_of_host_eq h fun _ => hostReadDout_host s
  · exact step_fault_of_host_eq h fun broken => hostSend_host_of_broken broken cw len cs
  · exact step_fault_of_host_eq h fun _ => rfl
  · exact step_fault_of_host_eq h fun broken => HostConduct.breaking_of_ne broken _

end Sys2Proof.Machine

/-! Proofs of the family 40_validator.md, continued: what an accepted VALIDATE leaves, what QPOLY reports, and the invariants
that every step keeps. -/

namespace Sys2Proof.Machine

/-! ### The response word by arithmetic (30_encoding.md R70) -/

theorem replyWord_toNat (r : Reply) : r.word.toNat = r.status.code.toNat + 2 ^ 8 * r.verdict.toNat +
    2 ^ 9 * r.ndx.toNat + 2 ^ 10 * r.dxp1.toNat + 2 ^ 16 * r.rwidth.toNat := by
  have hcode := r.status.code.isLt
  have hverdict := Bool.toNat_le r.verdict
  have hndx := Bool.toNat_le r.ndx
  have hdxp1 := Bool.toNat_le r.dxp1
  simp only [Reply.word, BitVec.toNat_append, BitVec.toNat_ofNat, BitVec.toNat_ofBool]
  rw [← Nat.shiftLeft_add_eq_or_of_lt (by omega), ← Nat.shiftLeft_add_eq_or_of_lt (by omega),
    ← Nat.shiftLeft_add_eq_or_of_lt (by omega), ← Nat.shiftLeft_add_eq_or_of_lt (by omega)]
  simp only [Nat.shiftLeft_eq, Nat.zero_mod, Nat.zero_mul, Nat.zero_or, Nat.or_zero]
  omega

/-- Each field of RW0 is where R70 puts it, and the bits between them are zero. -/
theorem cwBits_replyWord (r : Reply) :
    cwBits r.word 8 1 = r.verdict.toNat ∧ cwBits r.word 9 1 = r.ndx.toNat ∧ cwBits r.word 10 1 = r.dxp1.toNat ∧
    cwBits r.word 11 5 = 0 ∧ cwBits r.word 16 8 = r.rwidth.toNat ∧ cwBits r.word 24 8 = 0 := by
  have hcode := r.status.code.isLt
  have hverdict := Bool.toNat_le r.verdict
  have hndx := Bool.toNat_le r.ndx
  have hdxp1 := Bool.toNat_le r.dxp1
  have hrwidth := r.rwidth.isLt
  simp only [cwBits, replyWord_toNat]
  omega

theorem cwBits_rwidth (r : Reply) : cwBits r.word 16 8 = r.rwidth.toNat := by
  obtain ⟨-, -, -, -, rwidth, -⟩ := cwBits_replyWord r
  exact rwidth

/-! ### The polynomial an accepted string gives (10_state.md R22 to R24) -/

/-- A string that begins with `1` has its degree one below its length. -/
theorem val_hasDegree {cs : List Octet} (hhead : cs.head? = some 0x31#8) :
    HasDegree (val (bitsOf cs)) (cs.length - 1) := by
  obtain ⟨rest, rfl⟩ : ∃ rest, cs = 0x31#8 :: rest := List.head?_eq_some_iff.1 hhead
  have hval : val (bitsOf (0x31#8 :: rest)) = 2 ^ rest.length + val (bitsOf rest) := by
    simp [bitsOf, val_cons, Config.charOne]
  have hlt : val (bitsOf rest) < 2 ^ rest.length := by simpa using val_lt (bitsOf rest)
  rw [HasDegree, hval, List.length_cons, Nat.add_sub_cancel, Nat.shiftRight_eq_div_pow,
    Nat.add_div_left _ (Nat.two_pow_pos _), Nat.div_eq_of_lt hlt]

theorem HasWidth.le_widthMax {fam : Family} {imm8 : BitVec 8} {ew : Nat} (h : HasWidth fam imm8 ew) : ew ≤ 128 := by
  omega

/-- POLY_BITS has room for a string of the expected width, and POLY_WIDTH for that width. -/
theorem validated_fits {fam : Family} {imm8 : BitVec 8} {ew : Nat} {p : List Octet} (hw : HasWidth fam imm8 ew)
    (hlen : p.length = ew) : val (bitsOf p) < 2 ^ 128 ∧ ew < 2 ^ 8 := by
  have hmax := hw.le_widthMax
  have hlt := val_lt (bitsOf p)
  rw [bitsOf_length, hlen] at hlt
  exact ⟨hlt.trans_le (Nat.pow_le_pow_right two_pos hmax), by omega⟩

theorem checkContent_stripWs_none_iff (wsSet : List Octet) (ew : Nat) (cs : List Octet) :
    checkContent wsSet ew (stripWs wsSet cs) = none ↔
      stripWs wsSet cs ≠ [] ∧ AllBinary (stripWs wsSet cs) ∧ (stripWs wsSet cs).length = ew ∧
      (stripWs wsSet cs).head? = some 0x31#8 := by
  rw [checkContent_stripWs]
  split
  · next hnil => exact iff_of_false nofun fun ⟨hne, _⟩ => hne hnil
  split
  · next hbin => exact iff_of_false nofun fun ⟨_, h, _⟩ => hbin h
  split
  · next hlen => exact iff_of_false nofun fun ⟨_, _, h, _⟩ => hlen h
  split
  · next hhead => exact iff_of_false nofun fun ⟨_, _, _, h⟩ => hhead h
  · next hne hbin hlen hhead => exact iff_of_true rfl ⟨hne, of_not_not hbin, of_not_not hlen, of_not_not hhead⟩

/-- Settles O16: a string that passes the four checks is committed, and no bit of it is lost. -/
theorem validateAccepts : Obligations.ValidateAccepts := by
  rintro fam imm8 len ew s p ready rfl hw hbin hlen hhead
  obtain ⟨hbits, hwidth⟩ := validated_fits hw hlen
  have hne : stripWs s.wsSet (s.din.take len) ≠ [] := by
    rintro hnil
    simp [hnil] at hhead
  have hc := (checkContent_stripWs_none_iff s.wsSet ew (s.din.take len)).2 ⟨hne, hbin, hlen, hhead⟩
  have hword : Reply.word { status := .ok, rwidth := BitVec.ofNat 8 ew } = BitVec.ofNat 32 (ew * 2 ^ 16) := by
    rw [BitVec.toNat_eq, replyWord_toNat]
    simp only [ok_code_toNat, Bool.toNat_false, BitVec.toNat_ofNat]
    omega
  refine ⟨hbits, hwidth, ?_⟩
  rw [exec_validate_of_ready ready]
  simp only [validateBody, (expectedWidth_eq_some_iff fam imm8 ew).2 hw, State.takeInput_wsSet, hc, hword]
  simp only [State.respond, State.setPoly, State.takeInput, List.append_nil]

/-- Settles O18: only the custom family's expected width looks at IMM8. -/
theorem immediateIgnoredUnlessCustom : Obligations.ImmediateIgnoredUnlessCustom := by
  intro fam a b len s hfam ready
  rw [exec_validate_of_ready ready, exec_validate_of_ready ready]
  cases fam with
  | custom => exact absurd rfl hfam
  | crc8 | crc16 | crc32 | crc64 | reserved5 | reserved6 | reserved7 => rfl

/-! ### The derived flags (10_state.md R27) -/

theorem ndxFlag_toNat (p : BitVec 128) : (ndxFlag p).toNat = p.toNat % 2 := by
  rw [ndxFlag, BitVec.getLsbD, Nat.toNat_testBit, pow_zero, Nat.div_one]

theorem dxp1Flag_toNat (p : BitVec 128) : (dxp1Flag p).toNat = if popcount p % 2 = 0 then 1 else 0 := by
  by_cases h : popcount p % 2 = 0 <;> simp [dxp1Flag, h]

/-! ### QPOLY (40_validator.md R104), and commands before a VALIDATE (70_reset_and_hazards.md R233) -/

/-- Settles O21: the four words are the digits of POLY_BITS, and RW0 the fields of the reply. -/
theorem qpolyReports : Obligations.QpolyReports := by
  intro s
  refine ⟨fun valid => ?_, exec_qpoly_of_invalid⟩
  have hword :
      Reply.word { status := .ok, ndx := ndxFlag s.polyBits, dxp1 := dxp1Flag s.polyBits, rwidth := s.polyWidth } =
      BitVec.ofNat 32 (s.polyWidth.toNat * 2 ^ 16 + (if s.polyBits.toNat % 2 = 1 then 2 ^ 9 else 0) +
        (if popcount s.polyBits % 2 = 0 then 2 ^ 10 else 0)) := by
    have hwidth := s.polyWidth.isLt
    rw [BitVec.toNat_eq, replyWord_toNat, BitVec.toNat_ofNat, ndxFlag_toNat, dxp1Flag_toNat]
    simp only [ok_code_toNat, Bool.toNat_false]
    split_ifs <;> omega
  rw [exec_qpoly_of_valid valid, hword, payload_eq]

/-- Settles O35: the codec's first check is POLY_VALID, and so is that of TREAD and of QPOLY. -/
theorem nothingComputesBeforeValidate : Obligations.NothingComputesBeforeValidate := by
  intro i s invalid notValidate ready
  have hencode (cs : List Octet) : encodeChecks s cs = some .noPolynomial := by simp only [encodeChecks, invalid, if_true]
  have hdecode (cs : List Octet) : decodeChecks s cs = some .noPolynomial := by simp only [decodeChecks, invalid, if_true]
  cases i with
  | validate fam imm8 len => cases notValidate
  | encodeBw len => exact exec_encodeWith_of_error (t := false) ready (hencode _)
  | encodeTbl len => exact exec_encodeWith_of_error (t := true) ready (hencode _)
  | decodeBw len => exact exec_decodeWith_of_error (t := false) ready (hdecode _)
  | decodeTbl len => exact exec_decodeWith_of_error (t := true) ready (hdecode _)
  | tread index => exact exec_tread_of_invalid index invalid
  | qpoly => exact exec_qpoly_of_invalid invalid

/-! ### The invariants (10_state.md R24, R26, R29) -/

theorem HasDegree.le_of_lt_two_pow {P d e : Nat} (hd : HasDegree P d) (hP : P < 2 ^ (e + 1)) : d ≤ e := by
  have hge : 2 ^ d ≤ P := Nat.ge_two_pow_of_testBit hd.testBit_self
  exact Nat.lt_succ_iff.1 ((Nat.pow_lt_pow_iff_right one_lt_two).1 (hge.trans_lt hP))

theorem HasDegree.unique {P d e : Nat} (hd : HasDegree P d) (he : HasDegree P e) : d = e :=
  Nat.le_antisymm (hd.le_of_lt_two_pow he.lt_two_pow) (he.le_of_lt_two_pow hd.lt_two_pow)

/-- Settles O23: the bits have one degree, and a valid width is one more. -/
theorem equalBitsEqualWidth : Obligations.EqualBitsEqualWidth := by
  intro s u polyS polyU validS validU bits
  obtain ⟨hminS, -, hS⟩ := polyS.2 validS
  obtain ⟨hminU, -, hU⟩ := polyU.2 validU
  have hdegree := HasDegree.unique hS (bits ▸ hU)
  rw [BitVec.toNat_eq]
  omega

theorem setPoly_polyInv {fam : Family} {imm8 : BitVec 8} {ew : Nat} {p : List Octet} (s : State)
    (hw : HasWidth fam imm8 ew) (hlen : p.length = ew) (hhead : p.head? = some 0x31#8) :
    (s.setPoly (BitVec.ofNat 128 (val (bitsOf p))) (BitVec.ofNat 8 ew)).PolyInv := by
  obtain ⟨hbits, hwidth⟩ := validated_fits hw hlen
  refine ⟨nofun, fun _ => ?_⟩
  simp only [State.setPoly_polyBits, State.setPoly_polyWidth, BitVec.toNat_ofNat, Nat.mod_eq_of_lt hbits,
    Nat.mod_eq_of_lt hwidth]
  exact ⟨hw.two_le, hw.le_widthMax, hlen ▸ val_hasDegree hhead⟩

theorem withTableInUse_inv {s : State} (inv : s.Inv) (valid : s.polyValid = true) (large : 8 ≤ s.degree) :
    s.withTableInUse.Inv := by
  obtain ⟨poly, cache, ws⟩ := inv
  obtain ⟨-, hmax, hP⟩ := poly.2 valid
  exact ⟨poly, fun _ => ⟨large, hmax, hP, entry_tableInUse_toNat poly cache valid large⟩, ws⟩

theorem TableUse.inv {i : Instr} {s u : State} (use : TableUse i s u) (inv : s.Inv) (valid : s.polyValid = true) :
    u.Inv := by
  rcases use with rfl | ⟨-, large, rfl⟩
  · exact inv
  · exact withTableInUse_inv inv valid large

theorem Effect.inv {i : Instr} {s t : State} (h : Effect i s t) (inv : s.Inv) : t.Inv := by
  cases h with
  | waits | fails | reports => exact inv
  | validates ready width content =>
    obtain ⟨poly, cache, ws⟩ := inv
    obtain ⟨-, -, hlen, hhead⟩ := (checkContent_stripWs_none_iff _ _ _).1 content
    exact ⟨setPoly_polyInv s ((expectedWidth_eq_some_iff _ _ _).1 width) hlen hhead, cache, ws⟩
  | encodes _ _ _ valid use => exact use.inv inv valid
  | decodes _ _ _ valid use => exact use.inv inv valid
  | reads k valid large => exact withTableInUse_inv inv valid large

/-- Settles O13: by what a step can do (`step_cases`) and what a command can do (`Effect.inv`). -/
theorem stepKeepsInvariant : Obligations.StepKeepsInvariant := by
  intro s t inv h
  rcases step_cases h with ⟨-, rfl⟩ | ⟨why, rest, -, rfl⟩ | ⟨i, ws, -, effect⟩
  · exact inv
  · exact inv
  · exact effect.inv inv

end Sys2Proof.Machine

/-! Proofs of the families 10_state.md and 20_memory.md, continued: the frame of the commands. It says which registers and
channels they leave, that the cache does not show, and who sets the fields of the response word. -/

namespace Sys2Proof.Machine

/-! ### The polynomial group (10_state.md R25) -/

theorem TableUse.samePoly {i : Instr} {s u : State} (use : TableUse i s u) : s.SamePoly u := by
  rcases use with rfl | ⟨-, -, rfl⟩ <;> exact ⟨rfl, rfl, rfl⟩

/-- `i` is a VALIDATE that has ended with OK, its RW0 carrying the new width. -/
def ValidatedOk (i : Instr) (s t : State) : Prop :=
  i.isValidate = true ∧ t.polyValid = true ∧ ∃ w, t.resp = s.resp ++ [w] ∧ statusOf w = 0 ∧
    cwBits w 16 8 = t.polyWidth.toNat

theorem Effect.samePoly_or_validatedOk {i : Instr} {s t : State} (h : Effect i s t) :
    s.SamePoly t ∨ ValidatedOk i s t := by
  cases h with
  | waits | fails | reads | reports => exact .inl ⟨rfl, rfl, rfl⟩
  | validates => exact .inr ⟨rfl, rfl, _, rfl, statusOf_word _, cwBits_rwidth _⟩
  | encodes _ _ _ _ use => exact .inl use.samePoly
  | decodes _ _ _ _ use => exact .inl use.samePoly

theorem Effect.keeps_polyValid {i : Instr} {s t : State} (h : Effect i s t) (valid : s.polyValid = true) :
    t.polyValid = true := by
  rcases h.samePoly_or_validatedOk with ⟨-, -, same⟩ | ⟨-, valid', -⟩
  · exact same.trans valid
  · exact valid'

/-- Settles O24: by what a command can do (`Effect`) and what a step can do (`step_cases`). -/
theorem onlySuccessfulValidateWritesPolynomial : Obligations.OnlySuccessfulValidateWritesPolynomial := by
  refine ⟨fun i s t h => (exec_effect h).samePoly_or_validatedOk, fun s t h valid => ?_⟩
  rcases step_cases h with ⟨-, rfl⟩ | ⟨why, rest, -, rfl⟩ | ⟨i, ws, -, effect⟩
  · exact valid
  · exact valid
  · exact effect.keeps_polyValid valid

/-! ### States that differ in the cache alone (10_state.md R31) -/

section
variable {s u v : State}

theorem State.SameButCache.symm (h : s.SameButCache u) : u.SameButCache s :=
  calc u.cacheOf s
    _ = (s.cacheOf u).cacheOf s := by rw [h]
    _ = s := rfl

theorem State.SameButCache.trans (h : s.SameButCache u) (h' : u.SameButCache v) : s.SameButCache v :=
  calc s.cacheOf v
    _ = (s.cacheOf u).cacheOf v := rfl
    _ = v := by rw [h, h']

theorem State.SameButCache.samePoly (h : s.SameButCache u) : s.SamePoly u :=
  ⟨(congrArg State.polyBits h).symm, (congrArg State.polyWidth h).symm, (congrArg State.polyValid h).symm⟩

theorem State.SameButCache.after (h : s.SameButCache u) (n : Nat) (ws : List Word) (cs : List Octet) :
    (s.after n ws cs).SameButCache (u.after n ws cs) := congrArg (State.after · n ws cs) h

theorem State.SameButCache.hold (h : s.SameButCache u) (i : Instr) : (s.hold i).SameButCache (u.hold i) :=
  congrArg (State.hold · i) h

theorem State.SameButCache.takeInput (h : s.SameButCache u) (n : Nat) : (s.takeInput n).SameButCache (u.takeInput n) :=
  congrArg (State.takeInput · n) h

theorem State.SameButCache.setPoly (h : s.SameButCache u) (bits : BitVec 128) (width : BitVec 8) :
    (s.setPoly bits width).SameButCache (u.setPoly bits width) := congrArg (State.setPoly · bits width) h

end

theorem TableUse.sameButCache {i : Instr} {s u : State} (use : TableUse i s u) : s.SameButCache u := by
  rcases use with rfl | ⟨-, -, rfl⟩ <;> rfl

/-- A command that has its characters and writes no polynomial ends with a response, and writes at most the cache. -/
theorem Effect.sameButCache_after {i : Instr} {s t : State} (h : Effect i s t) (ready : Ready i s)
    (notValidate : i.isValidate = false) :
    ∃ ws cs, (s.after i.dataLen ws cs).SameButCache t ∧ (i.isEncode = false → cs = []) := by
  cases h with
  | waits short => exact absurd ready short
  | validates => cases notValidate
  | fails | reads | reports => exact ⟨_, _, rfl, fun _ => rfl⟩
  | encodes _ _ enc _ use => exact ⟨_, _, use.after_sameButCache _ _ _, fun h => absurd (enc.symm.trans h) (by decide)⟩
  | decodes _ _ _ _ use => exact ⟨_, _, use.after_sameButCache _ _ _, fun _ => rfl⟩

/-- `i` ends in `s` with the response `ws` and `cs`, and writes at most the cache. -/
def RespondsWith (i : Instr) (s : State) (ws : List Word) (cs : List Octet) : Prop :=
  ∃ t, exec i s = .next t ∧ (s.after i.dataLen ws cs).SameButCache t

theorem Answers.respondsWith {i : Instr} {s : State} {w : Word} {cs : List Octet} (h : Answers i s w cs) :
    RespondsWith i s [w] cs := by
  obtain ⟨t, ht, -, -, same, -⟩ := h.exists_next
  exact ⟨t, ht, same⟩

theorem tread_respondsWith {s : State} (inv : s.Inv) (index : BitVec 8) :
    RespondsWith (.tread index) s (treadWords s.polyBits s.polyWidth s.polyValid index) [] := by
  obtain ⟨poly, cache, -⟩ := inv
  obtain ⟨t, ht, sent⟩ := exec_tread_sends poly cache index
  obtain ⟨ws, cs, same, noChars⟩ := (exec_effect ht).sameButCache_after (Nat.zero_le _) rfl
  obtain rfl : ws = treadWords s.polyBits s.polyWidth s.polyValid index :=
    List.append_cancel_left ((congrArg State.resp same).trans sent)
  exact ⟨t, ht, noChars rfl ▸ same⟩

/-- The words QPOLY sends, from the polynomial group alone. -/
def qpolyWords (bits : BitVec 128) (width : BitVec 8) (valid : Bool) : List Word :=
  if valid = true then
    Reply.word { status := .ok, ndx := ndxFlag bits, dxp1 := dxp1Flag bits, rwidth := width } :: payload bits
  else [Reply.word { status := .noPolynomial }]

theorem qpoly_respondsWith (s : State) : RespondsWith .qpoly s (qpolyWords s.polyBits s.polyWidth s.polyValid) [] := by
  cases hv : s.polyValid with
  | false => exact ⟨_, exec_qpoly_of_invalid hv, rfl⟩
  | true => exact ⟨_, exec_qpoly_of_valid hv, rfl⟩

/-- Two states that differ in the cache alone, from either of which a command ends with the same response. -/
theorem RespondsWith.next_sameButCache {i : Instr} {s u : State} {ws : List Word} {cs : List Octet}
    (hs : RespondsWith i s ws cs) (hu : RespondsWith i u ws cs) (same : s.SameButCache u) :
    ∃ s' u', exec i s = .next s' ∧ exec i u = .next u' ∧ s'.SameButCache u' := by
  obtain ⟨s', hs', sameS⟩ := hs
  obtain ⟨u', hu', sameU⟩ := hu
  exact ⟨s', u', hs', hu', (sameS.symm.trans (same.after _ _ _)).trans sameU⟩

/-- VALIDATE looks at WS_SET and its characters alone. -/
theorem validateBody_sameButCache (fam : Family) (imm8 : BitVec 8) (cs : List Octet) {s u : State}
    (same : s.SameButCache u) :
    ∃ s' u', validateBody fam imm8 cs s = .next s' ∧ validateBody fam imm8 cs u = .next u' ∧ s'.SameButCache u' := by
  have hws : u.wsSet = s.wsSet := (congrArg State.wsSet same).symm
  rw [validateBody, validateBody, hws]
  cases expectedWidth fam imm8 with
  | none => exact ⟨_, _, rfl, rfl, same.after 0 _ _⟩
  | some ew =>
    dsimp only
    cases checkContent s.wsSet ew (stripWs s.wsSet cs) with
    | some st => exact ⟨_, _, rfl, rfl, same.after 0 _ _⟩
    | none => exact ⟨_, _, rfl, rfl, (same.setPoly _ _).after 0 _ _⟩

section
variable {s u : State} (invS : s.Inv) (invU : u.Inv) (same : s.SameButCache u)
include invS invU same

theorem encodeWith_sameButCache (t : Bool) {len : Nat} (readyS : len ≤ s.din.length) (readyU : len ≤ u.din.length) :
    ∃ s' u', exec (encodeWith t len) s = .next s' ∧ exec (encodeWith t len) u = .next u' ∧ s'.SameButCache u' := by
  have hdin : u.din = s.din := (congrArg State.din same).symm
  have answersU := encodeWith_answers invU t readyU
  rw [encodeAnswer_congr same.samePoly, hdin] at answersU
  exact (encodeWith_answers invS t readyS).respondsWith.next_sameButCache answersU.respondsWith same

theorem decodeWith_sameButCache (t : Bool) {len : Nat} (readyS : len ≤ s.din.length) (readyU : len ≤ u.din.length) :
    ∃ s' u', exec (decodeWith t len) s = .next s' ∧ exec (decodeWith t len) u = .next u' ∧ s'.SameButCache u' := by
  have hdin : u.din = s.din := (congrArg State.din same).symm
  have answersU := decodeWith_answers invU t readyU
  rw [decodeAnswer_congr same.samePoly, hdin] at answersU
  exact (decodeWith_answers invS t readyS).respondsWith.next_sameButCache answersU.respondsWith same

end

/-- Settles O52: a command is held, or ends with a response that the polynomial group and the characters determine
(`RespondsWith`). -/
theorem cacheIsUnobservable : Obligations.CacheIsUnobservable := by
  intro i s u invS invU same
  have hdin : u.din = s.din := (congrArg State.din same).symm
  obtain ⟨hbits, hwidth, hvalid⟩ := same.samePoly
  by_cases ready : Ready i s
  · have readyU : Ready i u := by rwa [Ready, hdin]
    cases i with
    | validate fam imm8 len =>
      rw [exec_validate_of_ready (len := len) ready, exec_validate_of_ready (len := len) readyU, hdin]
      exact validateBody_sameButCache fam imm8 _ (same.takeInput len)
    | encodeBw len => exact encodeWith_sameButCache invS invU same false ready readyU
    | encodeTbl len => exact encodeWith_sameButCache invS invU same true ready readyU
    | decodeBw len => exact decodeWith_sameButCache invS invU same false ready readyU
    | decodeTbl len => exact decodeWith_sameButCache invS invU same true ready readyU
    | tread index =>
      have respondsU := tread_respondsWith invU index
      rw [hbits, hwidth, hvalid] at respondsU
      exact (tread_respondsWith invS index).next_sameButCache respondsU same
    | qpoly =>
      have respondsU := qpoly_respondsWith u
      rw [hbits, hwidth, hvalid] at respondsU
      exact (qpoly_respondsWith s).next_sameButCache respondsU same
  · have shortU : ¬ Ready i u := by rwa [Ready, hdin]
    exact ⟨_, _, exec_of_short ready, exec_of_short shortU, same.hold i⟩

/-! ### The channels (20_memory.md R44, R45) and the frame of the commands -/

theorem Effect.din_eq {i : Instr} {s t : State} (h : Effect i s t) (ready : Ready i s) :
    t.din = s.din.drop i.dataLen := by
  cases h with
  | waits short => exact absurd ready short
  | fails | validates | reads | reports => rfl
  | encodes _ _ _ _ use => exact congrArg (List.drop i.dataLen) (congrArg State.din use.sameButCache).symm
  | decodes _ _ _ _ use => exact congrArg (List.drop i.dataLen) (congrArg State.din use.sameButCache).symm

/-- Only ENCODE sends characters, and what was sent before stays. -/
theorem Effect.sends {i : Instr} {s t : State} (h : Effect i s t) :
    (i.isEncode = false → t.dout = s.dout) ∧ (∃ ws, t.resp = s.resp ++ ws) ∧ (∃ cs, t.dout = s.dout ++ cs) := by
  cases h with
  | waits => exact ⟨fun _ => rfl, ⟨[], (List.append_nil _).symm⟩, ⟨[], (List.append_nil _).symm⟩⟩
  | fails | validates | reads | reports => exact ⟨fun _ => List.append_nil _, ⟨_, rfl⟩, ⟨_, rfl⟩⟩
  | encodes _ _ enc _ use =>
    exact ⟨fun h => absurd (enc.symm.trans h) (by decide), ⟨_, by rw [State.after_resp, use.resp_eq]⟩,
      ⟨_, by rw [State.after_dout, use.dout_eq]⟩⟩
  | decodes _ _ _ _ use =>
    have hdout := (List.append_nil _).trans use.dout_eq
    exact ⟨fun _ => hdout, ⟨_, by rw [State.after_resp, use.resp_eq]⟩, ⟨[], hdout.trans (List.append_nil _).symm⟩⟩

theorem Effect.keeps_cmd_and_host {i : Instr} {s t : State} (h : Effect i s t) :
    t.cmd = s.cmd ∧ t.wsSet = s.wsSet ∧ t.host = s.host ∧ t.unread = s.unread := by
  cases h with
  | waits | fails | validates | reads | reports => exact ⟨rfl, rfl, rfl, rfl⟩
  | encodes _ _ _ _ use => rcases use with rfl | ⟨-, -, rfl⟩ <;> exact ⟨rfl, rfl, rfl, rfl⟩
  | decodes _ _ _ _ use => rcases use with rfl | ⟨-, -, rfl⟩ <;> exact ⟨rfl, rfl, rfl, rfl⟩

/-- Settles O59: field by field, by what a command can do (`Effect`). -/
theorem commandFrames : Obligations.CommandFrames := by
  intro i s t h
  have effect := exec_effect h
  obtain ⟨cmd, ws, host, unread⟩ := effect.keeps_cmd_and_host
  obtain ⟨noChars, resp, dout⟩ := effect.sends
  have poly (notValidate : i.isValidate = false) : s.SamePoly t := effect.samePoly_or_validatedOk.resolve_right
    fun ⟨validate, _⟩ => absurd (validate.symm.trans notValidate) (by decide)
  have cache (noTable : i.usesTable = false) : s.SameCache t := effect.cacheKeptOrBuilt.resolve_right
    fun ⟨table, _⟩ => absurd (table.symm.trans noTable) (by decide)
  refine ⟨cmd, ws, host, unread, poly, cache, noChars, resp, dout, fun hlen => ?_, ?_⟩
  · rw [effect.din_eq (by rw [Ready, hlen]; exact Nat.zero_le _), hlen, List.drop_zero]
  · by_cases ready : Ready i s
    · exact ⟨i.dataLen, Nat.le_refl _, effect.din_eq ready⟩
    · cases h.symm.trans (exec_of_short ready)
      exact ⟨0, Nat.zero_le _, rfl⟩

theorem commandWords_headWord (head : Head) : commandWords (headWord head) = if head.takesLen then 2 else 1 := by
  cases head <;> simp [commandWords, headWord, Head.takesLen]

/-- The LEN of a decoded command is the word after its CW, where OP asks for one. -/
theorem dataLen_of_decode {ws rest : List Word} {i : Instr} (h : decode ws = .command i rest) :
    i.dataLen = if commandWords (ws.headD 0#32) = 2 then (ws.getD 1 0#32).toNat else 0 := by
  obtain ⟨wf, rfl⟩ := eq_encode_of_decode h
  obtain ⟨head, hi, noLen⟩ := exists_toInstr_eq i
  rw [encode_of_toInstr_eq hi]
  cases takes : head.takesLen with
  | true => simp [commandWords_headWord, takes, dataLen_mod wf]
  | false => simp [commandWords_headWord, takes, noLen takes]

/-- Settles O53: a command with its characters there takes them and responds (`Effect`), one without is held, and an illegal
CW is the step of `step_of_illegalWord`. -/
theorem inputFraming : Obligations.InputFraming := by
  refine ⟨fun i s t h => ⟨fun ready => ⟨(exec_effect h).din_eq ready, ?_⟩, fun short => ?_⟩,
    fun ws rest i h => dataLen_of_decode h, fun s t cw rest hidle hcmd hcw h => ?_⟩
  · obtain ⟨w, ws, cs, sent, -⟩ := (exec_effect h).sendsFramed ready
    simp [sent]
  · cases h.symm.trans (exec_of_short (Nat.not_le.2 short))
    exact ⟨rfl, rfl, rfl⟩
  · cases h.symm.trans (step_of_illegalWord hidle (host_of_step h) hcmd hcw)
    exact ⟨rfl, rfl⟩

/-! ### The fields of RW0 (30_encoding.md R70) -/

/-- The reply `r` of a command `i` from `s` to `t` sets only the fields that are the command's. -/
def SetsOwnFields (i : Instr) (s t : State) (r : Reply) : Prop :=
  r.status.code.toNat ≤ 9 ∧ (r.verdict = true → i.isDecode = true ∧ r.status = .ok) ∧
  r.ndx = (decide (i = .qpoly ∧ r.status = .ok) && ndxFlag s.polyBits) ∧
  r.dxp1 = (decide (i = .qpoly ∧ r.status = .ok) && dxp1Flag s.polyBits) ∧
  r.rwidth = if (i.isValidate = true ∨ i = .qpoly) ∧ r.status = .ok then t.polyWidth else 0#8

theorem Effect.setsOwnFields {i : Instr} {s t : State} (h : Effect i s t) (ready : Ready i s) :
    ∃ (r : Reply) (ws : List Word), t.resp = s.resp ++ r.word :: ws ∧ SetsOwnFields i s t r := by
  cases h with
  | waits short => exact absurd ready short
  | fails st _ ne le => exact ⟨{ status := st }, [], rfl, le, by simp [ne]⟩
  | validates => exact ⟨_, [], rfl, by simp [SetsOwnFields, Instr.isValidate]⟩
  | encodes _ _ enc _ use =>
    refine ⟨{ status := .ok }, [], by rw [State.after_resp, use.resp_eq], ?_⟩
    cases i <;> simp_all [SetsOwnFields, Instr.isValidate, Instr.isEncode]
  | decodes verdict _ dec _ use =>
    refine ⟨{ status := .ok, verdict := verdict }, [], by rw [State.after_resp, use.resp_eq], ?_⟩
    cases i <;> simp_all [SetsOwnFields, Instr.isValidate, Instr.isDecode]
  | reads => exact ⟨{ status := .ok }, _, rfl, by simp [SetsOwnFields, Instr.isValidate]⟩
  | reports =>
    exact ⟨{ status := .ok, ndx := ndxFlag s.polyBits, dxp1 := dxp1Flag s.polyBits, rwidth := s.polyWidth }, _, rfl,
      by simp [SetsOwnFields]⟩

/-- Settles O57: the first word is that of a reply (`Effect.setsOwnFields`), whose fields are where R70 puts them. -/
theorem responseWordFields : Obligations.ResponseWordFields := by
  intro i s t w ws ready h sent
  obtain ⟨r, vs, hr, hle, hverdict, hndx, hdxp1, hrwidth⟩ := (exec_effect h).setsOwnFields ready
  obtain ⟨rfl, -⟩ := List.cons.inj (List.append_cancel_left (hr.symm.trans sent))
  obtain ⟨verdict, ndx, dxp1, low, rwidth, high⟩ := cwBits_replyWord r
  have hok : statusOf r.word = 0 ↔ r.status = .ok := by rw [statusOf_word, code_eq_zero_iff]
  rw [verdict, ndx, dxp1, rwidth, hndx, hdxp1, hrwidth]
  simp only [hok]
  refine ⟨(statusOf_word r).trans_le hle, low, high, fun hv => hverdict ?_, ?_, ?_, ?_⟩
  · exact Bool.toNat_eq_one.1 hv
  · by_cases hq : i = .qpoly ∧ r.status = .ok <;> simp [hq, ndxFlag_toNat]
  · simp only [← and_assoc]
    by_cases hq : i = .qpoly ∧ r.status = .ok <;> simp [hq, dxp1Flag_toNat]
  · split_ifs <;> rfl

end Sys2Proof.Machine
